-- ==== Sys2Proof/Word.lean ====
section
/-! DEFINITION. The word type of the core, and the fixed sizes of 00_scope.md R4. -/

namespace Sys2Proof

/-- A Word: "a 16-bit unit of storage" (00_scope.md R4 `WORD_BITS`, R11). -/
abbrev Word := BitVec 16

/-- A character code of the I/O Device, or one byte of an image file (00_scope.md R4 `CHAR_OUT_BITS`,
`CHAR_IN_BITS`; 20_memory.md R49). -/
abbrev Byte := BitVec 8

/-- A register number 0..7 (00_scope.md R4 `NREGS`, 10_state.md R21). -/
abbrev RegIndex := Fin 8

end Sys2Proof
end

