-- ==== Sys2Proof/Syntax.lean ====
section
/-! DEFINITION. Operands and instructions: the 22 rows of spec/opcode_table.json (30_encoding.md R63 to R65). -/

namespace Sys2Proof

/-- An operand Word, by its class (30_encoding.md R63). The three classes partition the 65536 Words, so
every operand has exactly one Word. An invalid operand is syntax: the instruction that holds it is
fetched, and faults when it resolves the operand (40_execution_cycle.md R84 to R86; DESIGN CHOICE, safe, log 11). -/
inductive Operand where
  /-- Words 0..32767: the 15-bit value itself. -/
  | literal (v : BitVec 15)
  /-- Words 32768..32775: the register of that number. -/
  | register (r : RegIndex)
  /-- Words 32776..65535: Word `32776 + k`, which names nothing. -/
  | invalid (k : Fin 32760)
  deriving DecidableEq, Repr

/-- The 22 instructions, in the order of their opcodes 0..21 (30_encoding.md R65). Operands `a`, `b`, `c`
stand in the order of the operand Words (00_scope.md R9). -/
inductive Instr where
  /-- opcode 0, `halt` (R150) -/
  | halt
  /-- opcode 1, `set a, b` (R100) -/
  | set (a b : Operand)
  /-- opcode 2, `push a` (R101) -/
  | push (a : Operand)
  /-- opcode 3, `pop a` (R102) -/
  | pop (a : Operand)
  /-- opcode 4, `eq a, b, c` (R110) -/
  | eq (a b c : Operand)
  /-- opcode 5, `gt a, b, c` (R111) -/
  | gt (a b c : Operand)
  /-- opcode 6, `jmp a` (R120) -/
  | jmp (a : Operand)
  /-- opcode 7, `jt a, b` (R121) -/
  | jt (a b : Operand)
  /-- opcode 8, `jf a, b` (R122) -/
  | jf (a b : Operand)
  /-- opcode 9, `add a, b, c` (R131) -/
  | add (a b c : Operand)
  /-- opcode 10, `mult a, b, c` (R132) -/
  | mult (a b c : Operand)
  /-- opcode 11, `mod a, b, c` (R133) -/
  | mod (a b c : Operand)
  /-- opcode 12, `and a, b, c` (R134) -/
  | and (a b c : Operand)
  /-- opcode 13, `or a, b, c` (R135) -/
  | or (a b c : Operand)
  /-- opcode 14, `not a, b` (R136) -/
  | not (a b : Operand)
  /-- opcode 15, `rmem a, b` (R140) -/
  | rmem (a b : Operand)
  /-- opcode 16, `wmem a, b` (R141) -/
  | wmem (a b : Operand)
  /-- opcode 17, `call a` (R123) -/
  | call (a : Operand)
  /-- opcode 18, `ret` (R124) -/
  | ret
  /-- opcode 19, `out a` (R151) -/
  | out (a : Operand)
  /-- opcode 20, `in a` (R152); the name `in` is a word of Lean -/
  | inp (a : Operand)
  /-- opcode 21, `noop` (R153) -/
  | noop
  deriving DecidableEq, Repr

end Sys2Proof
end

