-- ==== Sys2Proof/WellFormed.lean ====
section
/-! DEFINITION. Operand roles (30_encoding.md R64) and the legal instructions (R67). An instruction that is
not well formed still has a meaning: the fault of its first bad operand (40_execution_cycle.md R86). -/

namespace Sys2Proof

/-- The role an opcode gives an operand position (30_encoding.md R64). -/
inductive Role where
  /-- role D: the operand names the register to write -/
  | dest
  /-- role S: the operand is read for its value -/
  | source
  deriving DecidableEq, Repr

/-- The operands of an instruction in positional order, each with its role: the table of 30_encoding.md R64. -/
def Instr.operands : Instr → List (Role × Operand)
  | .halt => []
  | .set a b => [(.dest, a), (.source, b)]
  | .push a => [(.source, a)]
  | .pop a => [(.dest, a)]
  | .eq a b c => [(.dest, a), (.source, b), (.source, c)]
  | .gt a b c => [(.dest, a), (.source, b), (.source, c)]
  | .jmp a => [(.source, a)]
  | .jt a b => [(.source, a), (.source, b)]
  | .jf a b => [(.source, a), (.source, b)]
  | .add a b c => [(.dest, a), (.source, b), (.source, c)]
  | .mult a b c => [(.dest, a), (.source, b), (.source, c)]
  | .mod a b c => [(.dest, a), (.source, b), (.source, c)]
  | .and a b c => [(.dest, a), (.source, b), (.source, c)]
  | .or a b c => [(.dest, a), (.source, b), (.source, c)]
  | .not a b => [(.dest, a), (.source, b)]
  | .rmem a b => [(.dest, a), (.source, b)]
  | .wmem a b => [(.source, a), (.source, b)]
  | .call a => [(.source, a)]
  | .ret => []
  | .out a => [(.source, a)]
  | .inp a => [(.dest, a)]
  | .noop => []

/-- The number of Words of an instruction: 1 plus its operand count (30_encoding.md R61). -/
def Instr.length (i : Instr) : Nat := 1 + i.operands.length

/-- What an operand may be in its role (30_encoding.md R64): a destination is a register; a source is a
literal or a register. -/
def Operand.fits : Role → Operand → Bool
  | .dest, .register _ => true
  | .dest, .literal _ => false
  | .dest, .invalid _ => false
  | .source, .literal _ => true
  | .source, .register _ => true
  | .source, .invalid _ => false

/-- A legal instruction: every operand fits its role (30_encoding.md R67, illegal encodings 2 and 3). -/
def Instr.wellFormed (i : Instr) : Bool := i.operands.all fun ro => ro.2.fits ro.1

end Sys2Proof
end

