-- ==== Sys2Proof/Decode.lean ====
section
/-! DEFINITION. The decoder and the encoder, both from 30_encoding.md: R60 to R66 (the opcode map, formats and
operand classes), and the byte order of an image file (20_memory.md R49). -/

namespace Sys2Proof

/-! ## Operand Words (30_encoding.md R63) -/

/-- The class of an operand Word (30_encoding.md R63): 0..32767 literal, 32768..32775 register
`w - 32768` (which is `w[2:0]`), 32776 and above invalid. -/
def decodeOperand (w : Word) : Operand :=
  if w.toNat < 32768 then .literal (w.setWidth 15)
  else if h : w.toNat < 32776 then .register ⟨w.toNat - 32768, by omega⟩
  else .invalid ⟨w.toNat - 32776, by have := w.isLt; omega⟩

/-- The Word of an operand (30_encoding.md R63): the inverse of `decodeOperand`. -/
def encodeOperand : Operand → Word
  | .literal v => v.setWidth 16
  | .register r => BitVec.ofNat 16 (32768 + r.val)
  | .invalid k => BitVec.ofNat 16 (32776 + k.val)

/-! ## The opcode map (30_encoding.md R61, R65) -/

/-- The four formats of 30_encoding.md R61, each holding the instruction its operands make. -/
inductive Shape where
  | f0 (i : Instr)
  | f1 (mk : Operand → Instr)
  | f2 (mk : Operand → Operand → Instr)
  | f3 (mk : Operand → Operand → Operand → Instr)

/-- The operand count of a format (30_encoding.md R61). -/
def Shape.operandCount : Shape → Nat
  | .f0 _ => 0
  | .f1 _ => 1
  | .f2 _ => 2
  | .f3 _ => 3

/-- One row of the opcode map (30_encoding.md R65). -/
structure OpRow where
  mnemonic : String
  shape : Shape

/-- The opcode map of 30_encoding.md R65, row `n` for opcode `n`: "one authoritative opcode table" for the
engine and for the trace decoder (R71). -/
def opcodeTable : List OpRow := [
  ⟨"halt", .f0 .halt⟩,
  ⟨"set", .f2 .set⟩,
  ⟨"push", .f1 .push⟩,
  ⟨"pop", .f1 .pop⟩,
  ⟨"eq", .f3 .eq⟩,
  ⟨"gt", .f3 .gt⟩,
  ⟨"jmp", .f1 .jmp⟩,
  ⟨"jt", .f2 .jt⟩,
  ⟨"jf", .f2 .jf⟩,
  ⟨"add", .f3 .add⟩,
  ⟨"mult", .f3 .mult⟩,
  ⟨"mod", .f3 .mod⟩,
  ⟨"and", .f3 .and⟩,
  ⟨"or", .f3 .or⟩,
  ⟨"not", .f2 .not⟩,
  ⟨"rmem", .f2 .rmem⟩,
  ⟨"wmem", .f2 .wmem⟩,
  ⟨"call", .f1 .call⟩,
  ⟨"ret", .f0 .ret⟩,
  ⟨"out", .f1 .out⟩,
  ⟨"in", .f1 .inp⟩,
  ⟨"noop", .f0 .noop⟩]

/-- The row an opcode Word selects: all 16 bits are compared, and a value above 21 has no row
(30_encoding.md R62). -/
def opcodeRow (op : Word) : Option OpRow := opcodeTable[op.toNat]?

/-! ## The decoder -/

/-- Why a list of Words is not the beginning of an instruction. -/
inductive DecodeError where
  /-- There is no Word at all to read an opcode from. -/
  | noWords
  /-- The opcode Word is not 0..21 (30_encoding.md R67, illegal encoding 1). -/
  | unknownOpcode (op : Word)
  /-- The list ends before the instruction's last operand Word. -/
  | missingOperand
  deriving DecidableEq, Repr

/-- The instruction a format makes of the Words after the opcode Word, and the Words that follow it: operand
Words "are always consumed positionally immediately after the opcode" (30_encoding.md R60). -/
def Shape.build : Shape → List Word → Except DecodeError (Instr × List Word)
  | .f0 i, ws => .ok (i, ws)
  | .f1 mk, a :: ws => .ok (mk (decodeOperand a), ws)
  | .f2 mk, a :: b :: ws => .ok (mk (decodeOperand a) (decodeOperand b), ws)
  | .f3 mk, a :: b :: c :: ws => .ok (mk (decodeOperand a) (decodeOperand b) (decodeOperand c), ws)
  | .f1 _, [] => .error .missingOperand
  | .f2 _, [] => .error .missingOperand
  | .f2 _, [_] => .error .missingOperand
  | .f3 _, [] => .error .missingOperand
  | .f3 _, [_] => .error .missingOperand
  | .f3 _, [_, _] => .error .missingOperand

/-- The instruction at the head of a list of Words, with the Words after it, or the reason there is none
(30_encoding.md R60 to R66). -/
def decode : List Word → Except DecodeError (Instr × List Word)
  | [] => .error .noWords
  | op :: ws =>
    match opcodeRow op with
    | none => .error (.unknownOpcode op)
    | some row => row.shape.build ws

/-! ## The encoder -/

/-- The opcode Word of an instruction (30_encoding.md R65). -/
def Instr.opcode : Instr → Word
  | .halt => 0#16
  | .set _ _ => 1#16
  | .push _ => 2#16
  | .pop _ => 3#16
  | .eq _ _ _ => 4#16
  | .gt _ _ _ => 5#16
  | .jmp _ => 6#16
  | .jt _ _ => 7#16
  | .jf _ _ => 8#16
  | .add _ _ _ => 9#16
  | .mult _ _ _ => 10#16
  | .mod _ _ _ => 11#16
  | .and _ _ _ => 12#16
  | .or _ _ _ => 13#16
  | .not _ _ => 14#16
  | .rmem _ _ => 15#16
  | .wmem _ _ => 16#16
  | .call _ => 17#16
  | .ret => 18#16
  | .out _ => 19#16
  | .inp _ => 20#16
  | .noop => 21#16

/-- The Words of an instruction: the opcode Word, then its operand Words in positional order
(30_encoding.md R60, R61). -/
def encode (i : Instr) : List Word := i.opcode :: i.operands.map fun ro => encodeOperand ro.2

/-! ## Image bytes, and the host's numbering of an instruction's bits -/

/-- Two image bytes as a Word, the low byte first (20_memory.md R44, R49). -/
def wordOfBytes (lo hi : Byte) : Word := hi ++ lo

/-- An image file's bytes as Words (20_memory.md R49). An odd number of bytes is no sequence of Words and
is refused (R49, 92_eei_decisions.md D4). -/
def wordsOfBytes : List Byte → Option (List Word)
  | [] => some []
  | [_] => none
  | lo :: hi :: bs => (wordsOfBytes bs).map (wordOfBytes lo hi :: ·)

/-- The longest instruction has 4 Words (30_encoding.md R60). -/
def maxInstrWords : Nat := 4

/-- The Words of an instruction whose bits are numbered as spec/opcode_table.json numbers them: Word `j` is
bits `16 j + 15 .. 16 j`, and every bit from `nbits` up is 0 (DEDUCED, safe, log 13). -/
def tableWords (nbits w : Nat) : List Word :=
  (List.range maxInstrWords).map fun j => BitVec.ofNat 16 ((w % 2 ^ nbits) >>> (16 * j))

/-- What the decoder reads from an instruction given by its numbered bits. -/
def decodeTableWord (nbits w : Nat) : Option Instr :=
  match decode (tableWords nbits w) with
  | .ok (i, _) => some i
  | .error _ => none

end Sys2Proof
end

