-- ==== Sys2Proof/Config.lean ====
section
/-! DEFINITION. The parameters of a core that the spec leaves to the implementation: `STACK_DEPTH` and
`MEM_FILL` (00_scope.md R4; 92_eei_decisions.md D2, D13). `IMAGE` and `INPUT` are arguments of
`State.start`; `TRACE_STRINGS` is outside the core (R4). And the free value: what the endless part of an infinite
`INPUT` holds. -/

namespace Sys2Proof

/-- The parameters of one instance of the core, plain data fixed for a run (DESIGN CHOICE, safe, log 6:
the values stand beside the state, so that a statement about every state holds for every value). -/
structure Config where
  /-- `STACK_DEPTH`: the largest number of entries of the Value Stack; `none` is unbounded (10_state.md R28). -/
  stackDepth : Option Nat
  /-- `MEM_FILL`: what every cell the image does not cover holds at reset (20_memory.md R47). -/
  memFill : Word
  deriving DecidableEq, Repr

/-- The defaults of 00_scope.md R4: an unbounded stack, and `MEM_FILL` = 0x0000. -/
def Config.standard : Config := { stackDepth := none, memFill := 0#16 }

/-- The character at a position of the endless part of an infinite `INPUT`, one sequence for each number of a source
(00_scope.md R4: "a finite or infinite sequence of character codes"; DESIGN CHOICE, safe, log 18). Nothing is known
of it, so what is proved of an infinite `INPUT` holds of every one. -/
opaque Config.endlessInput (source position : Nat) : Byte

end Sys2Proof
end

