-- ==== Sys2Proof/Machine/State.lean ====
section
/-! DEFINITION. The architectural state of the core (10_state.md R20, R39), as plain data. -/

namespace Sys2Proof.Machine

/-- `RUN`, the run state (10_state.md R32); a fourth value is never produced (DEDUCED, safe, log 15). -/
inductive RunState where
  | running
  | halted
  | faulted
  deriving DecidableEq, Repr

/-- The seven fault kinds (60_exceptions.md R161). Each is a state of the machine, recorded in `FAULT_KIND`;
none of them stops the model. -/
inductive FaultKind where
  /-- an operand Word of 32776 or more (R162) -/
  | invalidOperand
  /-- a literal in a destination position (R163) -/
  | invalidDestination
  /-- `pop` on an empty stack (R164) -/
  | stackUnderflow
  /-- a memory index above 32767 (R165) -/
  | outOfRangeAddress
  /-- an opcode Word not in 0..21 (R166) -/
  | unknownOpcode
  /-- `mod` with a divisor of 0 (R167) -/
  | modByZero
  /-- `push` or `call` on a full stack of finite depth (R168) -/
  | stackOverflow
  deriving DecidableEq, Repr

/-- One memory cell: a word address and the Word it holds. The unit of addressing is the Word, and inside
the core there are no bytes (20_memory.md R40, R44; DEDUCED, safe, log 7). -/
abbrev Cell := Nat × Word

/-- Word Memory as the list of the cells that differ from `MEM_FILL`, addresses strictly rising
(20_memory.md R40; the form is `Memory.wf` in Machine/Ops.lean). -/
abbrev Memory := List Cell

/-- What is still to come of `INPUT`, "a finite or infinite sequence of character codes, each 0..255" (00_scope.md R4), as
plain data. -/
inductive InputSeq where
  /-- these characters, the next one first, and no more unless another arrives -/
  | finite (chars : List Byte)
  /-- these characters, then without end those of a source from a position on (`Config.endlessInput`; DESIGN CHOICE,
  safe, log 18) -/
  | infinite (opening : List Byte) (source position : Nat)
  deriving DecidableEq, Repr

/-- The architectural state (10_state.md R20), with the output trace and the input not yet taken
(10_state.md R39; DESIGN CHOICE, safe, log 4, log 5) and the parameters of the run (DESIGN CHOICE, safe, log 6). -/
structure State where
  /-- `x[0]` .. `x[7]` (10_state.md R21) -/
  regs : Vector Word 8
  /-- the program counter, 16 bits (10_state.md R25) -/
  pc : Word
  /-- the Value Stack, bottom first, top last (10_state.md R28) -/
  stack : List Word
  /-- Word Memory (10_state.md R38) -/
  mem : Memory
  /-- `RUN` (10_state.md R32) -/
  run : RunState
  /-- `FAULT_KIND` (10_state.md R33); `none` is the code 0 (DEDUCED, safe, log 15) -/
  faultKind : Option FaultKind
  /-- `FAULT_PC` (10_state.md R34) -/
  faultPc : Word
  /-- the output trace, oldest character first (46_system_io.md R155) -/
  output : List Byte
  /-- the characters of `INPUT` not yet taken (46_system_io.md R156): the position in `INPUT` of 10_state.md R39 -/
  input : InputSeq
  /-- `STACK_DEPTH` and `MEM_FILL` (00_scope.md R4) -/
  cfg : Config
  deriving DecidableEq, Repr

/-- The reasons for which a step of this model stops: there are none (DESIGN CHOICE, safe, log 1). Each of the spec's
seven faults is a next state, the Faulted state of 60_exceptions.md R175, and no rule leaves an
instruction without an effect. -/
inductive Fault where
  deriving DecidableEq, Repr

/-- The reasons for which `exec` gives an instruction no meaning. -/
inductive Refusal where
  /-- Answered by an arm of `exec` for an instruction that has no meaning yet (safe: the run stops). Every
  instruction of this model has its meaning, so nothing answers it. -/
  | notModelled (mnemonic : String)
  deriving DecidableEq, Repr

/-- The state right after reset (10_state.md R39, 70_reset_and_hazards.md R190) with the default parameters,
the empty image and the empty `INPUT` (DESIGN CHOICE, unsafe, log 4 and log 8). -/
def State.reset : State where
  regs := Vector.replicate 8 0#16
  pc := 0#16
  stack := []
  mem := []
  run := .running
  faultKind := none
  faultPc := 0#16
  output := []
  input := .finite []
  cfg := Config.standard

end Sys2Proof.Machine
end

