-- ==== Sys2Proof/Machine/Ops.lean ====
section
/-! DEFINITION. The operations every instruction is written over: Word Memory behind the address decoder, the
registers, the Value Stack, the I/O Device, fault entry, halt, commit; the loader and the status
interface. A computation that can raise a fault is an `Except FaultKind`. -/

namespace Sys2Proof.Machine

/-! ## Word Memory (20_memory.md) -/

/-- The number of cells, whatever the image (00_scope.md R4 `MEM_WORDS`, 20_memory.md R40). -/
def memWords : Nat := 32768

/-- What an unlisted cell holds: `MEM_FILL` (20_memory.md R47; the spec's own choice D2; DESIGN CHOICE, unsafe, log 9). -/
def unlisted (cfg : Config) (_addr : Nat) : Word := cfg.memFill

/-- The Word at an address of a listed memory, `fill` where none is listed. -/
def Memory.read (fill : Word) : Memory → Nat → Word
  | [], _ => fill
  | (k, w) :: m, a => if k = a then w else Memory.read fill m a

/-- A cell put into its place in a memory that does not list its address. -/
def Memory.insert (a : Nat) (v : Word) : Memory → Memory
  | [] => [(a, v)]
  | (k, w) :: m => if a < k then (a, v) :: (k, w) :: m else (k, w) :: Memory.insert a v m

/-- The memory without the cell of an address. -/
def Memory.erase (m : Memory) (a : Nat) : Memory := m.filter fun c => c.1 != a

/-- A write that keeps the canonical form: a cell that gets the fill value is listed no more. -/
def Memory.write (fill : Word) (m : Memory) (a : Nat) (v : Word) : Memory :=
  if v = fill then m.erase a else (m.erase a).insert a v

/-- The canonical form: addresses strictly rising and inside the memory, no cell equal to the fill value
(so equal memories are equal lists). -/
def Memory.wf (fill : Word) (m : Memory) : Bool :=
  decide (m.Pairwise fun c c' => c.1 < c'.1) && m.all fun c => decide (c.1 < memWords) && c.2 != fill

/-- A list of Words laid out from an address upward, in canonical form (20_memory.md R47). -/
def Memory.ofWords (fill : Word) : Nat → List Word → Memory
  | _, [] => []
  | a, w :: ws => if w = fill then Memory.ofWords fill (a + 1) ws else (a, w) :: Memory.ofWords fill (a + 1) ws

/-- The Word held by a cell of the machine's memory (20_memory.md R40): the read every statement about
memory is made through. -/
def State.cell (s : State) (a : Nat) : Word := s.mem.read (unlisted s.cfg a) a

/-- `MemRead(addr, 1)` (20_memory.md R41): the 15-bit address decoder, then the whole Word. -/
def State.memRead (s : State) (addr : Word) : Except FaultKind Word :=
  if addr.toNat < memWords then .ok (s.cell addr.toNat) else .error .outOfRangeAddress

/-- The state with one cell holding another Word. -/
def State.setCell (s : State) (a : Nat) (v : Word) : State :=
  { s with mem := s.mem.write (unlisted s.cfg a) a v }

/-- `MemWrite(addr, 1, v)` (20_memory.md R42). -/
def State.memWrite (s : State) (addr v : Word) : Except FaultKind State :=
  if addr.toNat < memWords then .ok (s.setCell addr.toNat v) else .error .outOfRangeAddress

/-! ## Registers and pc (10_state.md) -/

/-- `x[i]` (10_state.md R21). -/
def State.readReg (s : State) (i : RegIndex) : Word := s.regs[i]

/-- `x[i] <- v`: all 16 bits, no mask (10_state.md R22). -/
def State.writeReg (s : State) (i : RegIndex) (v : Word) : State := { s with regs := s.regs.set i v }

/-- `pc <- t`: all 16 bits, no check (10_state.md R25). -/
def State.jumpTo (s : State) (t : Word) : State := { s with pc := t }

/-- The fall-through advance past an instruction of `n` Words (10_state.md R26, 40_execution_cycle.md R87).
Through `step` the pc is at most 32767 here and the sum does not wrap (DESIGN CHOICE, safe, log 12). -/
def State.advance (s : State) (n : Nat) : State := { s with pc := s.pc + BitVec.ofNat 16 n }

/-! ## The Value Stack (10_state.md R28 to R30) -/

/-- The state with another stack. -/
def State.withStack (s : State) (st : List Word) : State := { s with stack := st }

/-- Whether the stack already holds `STACK_DEPTH` entries (10_state.md R29; never when unbounded); a stack that
held more would count as full too (DEDUCED, safe, log 14). -/
def State.stackFull (s : State) : Bool :=
  match s.cfg.stackDepth with
  | none => false
  | some d => decide (d ≤ s.stack.length)

/-- `Push(v)` with its guard: `StackOverflow` on a full stack, else the entry appended at the top
(10_state.md R29, 60_exceptions.md R168). -/
def State.pushValue (s : State) (v : Word) : Except FaultKind State :=
  if s.stackFull then .error .stackOverflow else .ok (s.withStack (s.stack ++ [v]))

/-- `Pop()`: the top entry and the state without it, or `none` when `Empty()` (10_state.md R28, R30): each
caller says what an empty stack does. -/
def State.popValue (s : State) : Option (Word × State) :=
  match s.stack.getLast? with
  | none => none
  | some v => some (v, s.withStack s.stack.dropLast)

/-! ## The I/O Device (46_system_io.md R154 to R156) -/

/-- `OutChar(v)`: the low 8 bits of `v` are appended to the output trace; it never blocks and never fails
(46_system_io.md R155). -/
def State.outChar (s : State) (v : Word) : State := { s with output := s.output ++ [v.setWidth 8] }

/-- The character that comes `n` characters after the next one, if there is one (00_scope.md R4). -/
def InputSeq.char? : InputSeq → Nat → Option Byte
  | .finite chars, n => chars[n]?
  | .infinite opening source position, n =>
    some (opening.getD n (Config.endlessInput source (position + (n - opening.length))))

/-- The next character and what comes after it, or `none` where nothing is left (46_system_io.md R156). -/
def InputSeq.take : InputSeq → Option (Byte × InputSeq)
  | .finite [] => none
  | .finite (ch :: chars) => some (ch, .finite chars)
  | .infinite [] source position => some (Config.endlessInput source position, .infinite [] source (position + 1))
  | .infinite (ch :: opening) source position => some (ch, .infinite opening source position)

/-- The sequence with one more character at its end. Nothing comes after an infinite one. -/
def InputSeq.append : InputSeq → Byte → InputSeq
  | .finite chars, ch => .finite (chars ++ [ch])
  | .infinite opening source position, _ => .infinite opening source position

/-- The state with another rest of `INPUT`. -/
def State.withInput (s : State) (input : InputSeq) : State := { s with input := input }

/-- `InChar()`: the next element of `INPUT` and the state without it, or `none` while there is none
(46_system_io.md R156). -/
def State.inChar (s : State) : Option (Byte × State) :=
  match s.input.take with
  | none => none
  | some (ch, rest) => some (ch, s.withInput rest)

/-- A character that arrives at the I/O Device during a run. It lands between two steps (60_exceptions.md
R183; the host's act and no part of a step; DESIGN CHOICE, safe, log 4). -/
def State.deliver (s : State) (ch : Byte) : State := s.withInput (s.input.append ch)

/-! ## Ending a step -/

/-- `raise K(pc)`, fault entry (60_exceptions.md R175): nothing the instruction would have written is
written; `RUN <- FAULTED`, `FAULT_KIND <- code(K)`, `FAULT_PC <- pc`, the pc stays. -/
def State.raise (s : State) (k : FaultKind) : State :=
  { s with run := .faulted, faultKind := some k, faultPc := s.pc }

/-- `halt_now()` (60_exceptions.md R177): `RUN <- HALTED` and nothing else. There is no return from either
end state but reset (60_exceptions.md R176, 40_execution_cycle.md R90). -/
def State.haltNow (s : State) : State := { s with run := .halted }

/-- Commit (40_execution_cycle.md R87, R88): the computed state, or fault entry from the state before the
step, all or nothing. -/
def State.commit (s : State) (r : Except FaultKind State) : Host.Outcome State Fault Refusal :=
  match r with
  | .ok t => .next t
  | .error k => .next (s.raise k)

/-! ## The loader (20_memory.md R47, R48; 70_reset_and_hazards.md R190) -/

/-- Reset with an image and an input, finite or infinite: the state the first step starts from. It does not depend on the state
before it (R191). An image of more than 32768 Words is refused (20_memory.md R48, 92_eei_decisions.md D3;
DESIGN CHOICE, safe, log 17: a function and not a step). -/
def State.start (cfg : Config) (image : List Word) (input : InputSeq) : Option State :=
  if image.length ≤ memWords then
    some { State.reset with mem := Memory.ofWords cfg.memFill 0 image, input := input, cfg := cfg }
  else none

/-! ## The status interface (00_scope.md R5, 70_reset_and_hazards.md R199) -/

/-- The code of a run state, 2 bits (10_state.md R32). -/
def RunState.code : RunState → BitVec 2
  | .running => 0#2
  | .halted => 1#2
  | .faulted => 2#2

/-- The code of a fault kind, 3 bits (60_exceptions.md R161). -/
def FaultKind.code : FaultKind → BitVec 3
  | .invalidOperand => 1#3
  | .invalidDestination => 2#3
  | .stackUnderflow => 3#3
  | .outOfRangeAddress => 4#3
  | .unknownOpcode => 5#3
  | .modByZero => 6#3
  | .stackOverflow => 7#3

/-- `RUN` as the host reads it (10_state.md R32). -/
def State.runCode (s : State) : BitVec 2 := s.run.code

/-- `FAULT_KIND` as the host reads it: 0 while no fault is recorded (10_state.md R33). -/
def State.faultCode (s : State) : BitVec 3 :=
  match s.faultKind with
  | none => 0#3
  | some k => k.code

end Sys2Proof.Machine
end

