-- ==== Sys2Proof/Machine/Operands.lean ====
section
/-! DEFINITION. The Operand Resolver with its two entry points (40_execution_cycle.md R84 to R86), and the
instruction shapes built over it. -/

namespace Sys2Proof.Machine

/-- `Resolve(w)`, the read entry point (40_execution_cycle.md R84): a literal is its 15-bit value widened with
zeros, a register is all 16 bits of what it holds. -/
def State.resolve (s : State) : Operand → Except FaultKind Word
  | .literal v => .ok (v.setWidth 16)
  | .register r => .ok (s.readReg r)
  | .invalid _ => .error .invalidOperand

/-- `Dest(w)`, the register-destination entry point (40_execution_cycle.md R85). -/
def destReg : Operand → Except FaultKind RegIndex
  | .literal _ => .error .invalidDestination
  | .register r => .ok r
  | .invalid _ => .error .invalidOperand

/-- The shape `x[d] <- f(vb, vc); pc <- p + 4`: operands resolved in the order a, b, c, all of them from the
state before the step (40_execution_cycle.md R86, R91). -/
def State.writeOf2 (s : State) (f : Word → Word → Except FaultKind Word) (a b c : Operand) :
    Except FaultKind State := do
  let d ← destReg a
  let vb ← s.resolve b
  let vc ← s.resolve c
  let v ← f vb vc
  return (s.writeReg d v).advance 4

/-- The shape `x[d] <- f(vb); pc <- p + 3` (40_execution_cycle.md R86, R91). -/
def State.writeOf1 (s : State) (f : Word → Except FaultKind Word) (a b : Operand) :
    Except FaultKind State := do
  let d ← destReg a
  let vb ← s.resolve b
  let v ← f vb
  return (s.writeReg d v).advance 3

/-- The shape of the conditional jumps: the target is resolved whether or not the jump is taken
(40_execution_cycle.md R86). -/
def State.jumpIf (s : State) (taken : Word → Bool) (a b : Operand) : Except FaultKind State := do
  let va ← s.resolve a
  let vb ← s.resolve b
  return if taken va then s.jumpTo vb else s.advance 3

end Sys2Proof.Machine
end

