-- ==== Sys2Proof/Machine/Flags.lean ====
section
/-! DEFINITION. The core has no flags (10_state.md R35): a comparison gives a Word 0 or 1, and an ALU result is
masked to 15 bits with no carry and no overflow indication (44_arithmetic_logic.md R130, R138). This
file holds those result computations. -/

namespace Sys2Proof.Machine

/-- `mask15(v)` = `v & 0x7FFF` (44_arithmetic_logic.md R130). -/
def mask15 (v : Word) : Word := v &&& 0x7FFF#16

/-- The Word a comparison writes (10_state.md R35). -/
def truthWord (b : Bool) : Word := if b then 1#16 else 0#16

/-- `eq`: all 16 bits are compared (42_compare.md R110). -/
def eqResult (vb vc : Word) : Word := truthWord (vb == vc)

/-- `gt`: unsigned, strict, all 16 bits (42_compare.md R111). -/
def gtResult (vb vc : Word) : Word := truthWord (decide (vb.toNat > vc.toNat))

/-- `add`: the sum of the two integers modulo 32768 (44_arithmetic_logic.md R131, R137). -/
def addResult (vb vc : Word) : Word := BitVec.ofNat 16 ((vb.toNat + vc.toNat) % 32768)

/-- `mult`: the product of the two integers modulo 32768 (44_arithmetic_logic.md R132, R137). -/
def multResult (vb vc : Word) : Word := BitVec.ofNat 16 ((vb.toNat * vc.toNat) % 32768)

/-- `mod`: the remainder of the 16-bit values, then the mask; a divisor of 0 is `ModByZero`
(44_arithmetic_logic.md R133). -/
def modResult (vb vc : Word) : Except FaultKind Word :=
  if vc.toNat = 0 then .error .modByZero else .ok (mask15 (BitVec.ofNat 16 (vb.toNat % vc.toNat)))

/-- `and` (44_arithmetic_logic.md R134). -/
def andResult (vb vc : Word) : Word := mask15 (vb &&& vc)

/-- `or` (44_arithmetic_logic.md R135). -/
def orResult (vb vc : Word) : Word := mask15 (vb ||| vc)

/-- `not` (44_arithmetic_logic.md R136). -/
def notResult (vb : Word) : Word := mask15 (~~~vb)

end Sys2Proof.Machine
end

