-- ==== Sys2Proof/Machine/Alu.lean ====
section
/-! DEFINITION. Arithmetic and logic: `add`, `mult`, `mod`, `and`, `or`, `not` (44_arithmetic_logic.md). -/

namespace Sys2Proof.Machine

/-- `add a, b, c` (44_arithmetic_logic.md R131). -/
def execAdd (a b c : Operand) (s : State) : Host.Outcome State Fault Refusal :=
  s.commit (s.writeOf2 (fun vb vc => .ok (addResult vb vc)) a b c)

/-- `mult a, b, c` (44_arithmetic_logic.md R132). -/
def execMult (a b c : Operand) (s : State) : Host.Outcome State Fault Refusal :=
  s.commit (s.writeOf2 (fun vb vc => .ok (multResult vb vc)) a b c)

/-- `mod a, b, c` (44_arithmetic_logic.md R133). -/
def execMod (a b c : Operand) (s : State) : Host.Outcome State Fault Refusal :=
  s.commit (s.writeOf2 modResult a b c)

/-- `and a, b, c` (44_arithmetic_logic.md R134). -/
def execAnd (a b c : Operand) (s : State) : Host.Outcome State Fault Refusal :=
  s.commit (s.writeOf2 (fun vb vc => .ok (andResult vb vc)) a b c)

/-- `or a, b, c` (44_arithmetic_logic.md R135). -/
def execOr (a b c : Operand) (s : State) : Host.Outcome State Fault Refusal :=
  s.commit (s.writeOf2 (fun vb vc => .ok (orResult vb vc)) a b c)

/-- `not a, b` (44_arithmetic_logic.md R136). -/
def execNot (a b : Operand) (s : State) : Host.Outcome State Fault Refusal :=
  s.commit (s.writeOf1 (fun vb => .ok (notResult vb)) a b)

end Sys2Proof.Machine
end

