-- ==== Sys2Proof/Machine/Compare.lean ====
section
/-! DEFINITION. Comparison: `eq`, `gt` (42_compare.md). -/

namespace Sys2Proof.Machine

/-- `eq a, b, c` (42_compare.md R110). -/
def execEq (a b c : Operand) (s : State) : Host.Outcome State Fault Refusal :=
  s.commit (s.writeOf2 (fun vb vc => .ok (eqResult vb vc)) a b c)

/-- `gt a, b, c` (42_compare.md R111). -/
def execGt (a b c : Operand) (s : State) : Host.Outcome State Fault Refusal :=
  s.commit (s.writeOf2 (fun vb vc => .ok (gtResult vb vc)) a b c)

end Sys2Proof.Machine
end

