-- ==== Sys2Proof/Machine/Control.lean ====
section
/-! DEFINITION. Control transfer: `jmp`, `jt`, `jf`, `call`, `ret` (43_control_transfer.md). A target is any
16-bit value and is written unchecked (R125): the next fetch checks it. -/

namespace Sys2Proof.Machine

/-- `jmp a` (43_control_transfer.md R120). -/
def execJmp (a : Operand) (s : State) : Host.Outcome State Fault Refusal :=
  s.commit do
    let va ← s.resolve a
    return s.jumpTo va

/-- `jt a, b` (43_control_transfer.md R121): all 16 bits of `va` are tested. -/
def execJt (a b : Operand) (s : State) : Host.Outcome State Fault Refusal :=
  s.commit (s.jumpIf (fun va => va != 0#16) a b)

/-- `jf a, b` (43_control_transfer.md R122): all 16 bits of `va` are tested. -/
def execJf (a b : Operand) (s : State) : Host.Outcome State Fault Refusal :=
  s.commit (s.jumpIf (fun va => va == 0#16) a b)

/-- `call a` (43_control_transfer.md R123): the pushed return address is `p + 2`, unmasked. -/
def execCall (a : Operand) (s : State) : Host.Outcome State Fault Refusal :=
  s.commit do
    let va ← s.resolve a
    let t ← s.pushValue (s.pc + 2#16)
    return t.jumpTo va

/-- `ret` (43_control_transfer.md R124): on an empty stack it halts, which is no fault. -/
def execRet (s : State) : Host.Outcome State Fault Refusal :=
  match s.popValue with
  | none => .next s.haltNow
  | some (v, t) => .next (t.jumpTo v)

end Sys2Proof.Machine
end

