-- ==== Sys2Proof/Machine/Data.lean ====
section
/-! DEFINITION. Data movement and stack: `set`, `push`, `pop` (41_data_movement_stack.md). -/

namespace Sys2Proof.Machine

/-- `set a, b` (41_data_movement_stack.md R100): `x[d] <- vb`, all 16 bits. -/
def execSet (a b : Operand) (s : State) : Host.Outcome State Fault Refusal :=
  s.commit (s.writeOf1 (fun vb => .ok vb) a b)

/-- `push a` (41_data_movement_stack.md R101). -/
def execPush (a : Operand) (s : State) : Host.Outcome State Fault Refusal :=
  s.commit do
    let va ← s.resolve a
    let t ← s.pushValue va
    return t.advance 2

/-- `pop a` (41_data_movement_stack.md R102): the destination is checked before the stack. -/
def execPop (a : Operand) (s : State) : Host.Outcome State Fault Refusal :=
  s.commit do
    let d ← destReg a
    match s.popValue with
    | none => .error .stackUnderflow
    | some (v, t) => return (t.writeReg d v).advance 2

end Sys2Proof.Machine
end

