-- ==== Sys2Proof/Machine/Mem.lean ====
section
/-! DEFINITION. Memory access: `rmem`, `wmem` (45_memory_access.md). The effective address is the resolved value
of an operand (R142). -/

namespace Sys2Proof.Machine

/-- `rmem a, b` (45_memory_access.md R140): the Word is copied unmasked. -/
def execRmem (a b : Operand) (s : State) : Host.Outcome State Fault Refusal :=
  s.commit (s.writeOf1 s.memRead a b)

/-- `wmem a, b` (45_memory_access.md R141): both operands are sources, `a` the address and `b` the value. -/
def execWmem (a b : Operand) (s : State) : Host.Outcome State Fault Refusal :=
  s.commit do
    let va ← s.resolve a
    let vb ← s.resolve b
    let t ← s.memWrite va vb
    return t.advance 3

end Sys2Proof.Machine
end

