-- ==== Sys2Proof/Machine/System.lean ====
section
/-! DEFINITION. System and I/O: `halt`, `out`, `in`, `noop` (46_system_io.md). -/

namespace Sys2Proof.Machine

/-- `halt` (46_system_io.md R150). -/
def execHalt (s : State) : Host.Outcome State Fault Refusal := .next s.haltNow

/-- `out a` (46_system_io.md R151). -/
def execOut (a : Operand) (s : State) : Host.Outcome State Fault Refusal :=
  s.commit do
    let va ← s.resolve a
    return (s.outChar va).advance 2

/-- `in a` (46_system_io.md R152): the destination is checked before the device is asked. While the device
has no character the instruction waits: nothing changes, and the same instruction is attempted again
(40_execution_cycle.md R92; DEDUCED, safe, log 3). -/
def execInp (a : Operand) (s : State) : Host.Outcome State Fault Refusal :=
  s.commit do
    let d ← destReg a
    match s.inChar with
    | none => return s
    | some (ch, t) => return (t.writeReg d (ch.setWidth 16)).advance 2

/-- `noop` (46_system_io.md R153). -/
def execNoop (s : State) : Host.Outcome State Fault Refusal := .next (s.advance 1)

end Sys2Proof.Machine
end

