-- ==== Sys2Proof/Machine/Fetch.lean ====
section
/-! DEFINITION. Phases 1 to 3 of the step: fetch, dispatch, operand fetch (40_execution_cycle.md R80 to R83). -/

namespace Sys2Proof.Machine

/-- The `n` Words at `addr`, `addr + 1`, .. read with `MemRead` in address order (40_execution_cycle.md R83). -/
def State.memReads (s : State) (addr : Word) : Nat → Except FaultKind (List Word)
  | 0 => .ok []
  | n + 1 => do
    let w ← s.memRead addr
    let ws ← s.memReads (addr + 1#16) n
    return w :: ws

/-- The fault a decoding error stands for. In `State.fetch` the operand Words that were read are as many as
the opcode has, so only an unknown opcode ever comes out (40_execution_cycle.md R82, R83). -/
def decodeFault : DecodeError → FaultKind
  | .noWords => .outOfRangeAddress
  | .unknownOpcode _ => .unknownOpcode
  | .missingOperand => .outOfRangeAddress

/-- The instruction at the pc (40_execution_cycle.md R80, phases 1 to 3): the opcode Word; `UnknownOpcode`
before any operand Word is read; then the operand Words, in address order. -/
def State.fetch (s : State) : Except FaultKind Instr := do
  let op ← s.memRead s.pc
  match opcodeRow op with
  | none => .error .unknownOpcode
  | some row =>
    let ws ← s.memReads (s.pc + 1#16) row.shape.operandCount
    match row.shape.build ws with
    | .ok (i, _) => return i
    | .error e => .error (decodeFault e)

/-- A list of Words put at consecutive addresses from an address upward; what would lie above the memory is
dropped. -/
def State.placeWords (s : State) : Nat → List Word → State
  | _, [] => s
  | a, w :: ws =>
    let t := if a < memWords then s.setCell a w else s
    t.placeWords (a + 1) ws

end Sys2Proof.Machine
end

