-- ==== Sys2Proof/Machine/Step.lean ====
section
/-! DEFINITION. One step of the core (40_execution_cycle.md R80, R90). -/

namespace Sys2Proof.Machine

/-- One step (40_execution_cycle.md R80): the instruction at the pc is executed, or the fault of its fetch
is taken. In a terminal state nothing happens until reset (40_execution_cycle.md R90; DEDUCED, safe,
log 2): the step answers the state itself. -/
def step (s : State) : Host.Outcome State Fault Refusal :=
  match s.run with
  | .running =>
    match s.fetch with
    | .ok i => exec i s
    | .error k => .next (s.raise k)
  | .halted => .next s
  | .faulted => .next s

/-- The state with an instruction, given by its bits as spec/opcode_table.json numbers them, stored where the
next step fetches: at the pc and the addresses after it (DEDUCED, safe, log 13). -/
def State.withFetchWord (s : State) (nbits w : Nat) : State := s.placeWords s.pc.toNat (tableWords nbits w)

end Sys2Proof.Machine
end

