-- ==== Sys2Proof/Machine/Run.lean ====
section
/-! DEFINITION. Runs whose `INPUT` is an infinite sequence given as an argument (00_scope.md R4: `INPUT` is "an
argument of the model"), whatever the input the state holds. -/

namespace Sys2Proof.Machine

/-- One step in which the next character of `INPUT` is `ch`. The state it answers holds in `input` whether the
character is still there. -/
def stepOn (ch : Byte) (s : State) : Host.Outcome State Fault Refusal := step (s.withInput (.finite [ch]))

/-- Whether a step of `stepOn` took its character (46_system_io.md R152: one for each completed `in`). -/
def State.tookChar (s : State) : Bool := s.input == .finite []

/-- `n` steps on an infinite `INPUT`: `chars k` is its character `k`, counted from the first one not yet taken
(46_system_io.md R156: "successive calls return successive elements in order"). -/
def runOn (chars : Nat → Byte) : Nat → State → Host.Outcome State Fault Refusal
  | 0, s => .next s
  | n + 1, s =>
    match stepOn (chars 0) s with
    | .next t => runOn (fun k => if t.tookChar then chars (k + 1) else chars k) n t
    | .fault f => .fault f
    | .refused r => .refused r

end Sys2Proof.Machine
end

