-- ==== Sys2Proof/Machine/Trace.lean ====
section
/-! DEFINITION. The Instruction Decoder used for tracing (30_encoding.md R71): it classifies one Word in
isolation and takes no part in execution. Its display strings (`TRACE_STRINGS`) are not in the spec. -/

namespace Sys2Proof.Machine

/-- The four display classes of a Word (30_encoding.md R71). -/
inductive DisplayClass where
  /-- 0..21: the mnemonic of that opcode -/
  | mnemonic (name : String)
  /-- 32768..32775: a label for that register -/
  | registerLabel (r : RegIndex)
  /-- 22..127: an annotation with that character -/
  | printableCharacter (w : Word)
  /-- every other value: a generic literal annotation -/
  | genericLiteral (w : Word)
  deriving DecidableEq, Repr

/-- The class of a Word: "a pure lookup with no awareness of operand count or control flow"
(30_encoding.md R71). -/
def displayClass (w : Word) : DisplayClass :=
  match opcodeRow w with
  | some row => .mnemonic row.mnemonic
  | none =>
    match decodeOperand w with
    | .register r => .registerLabel r
    | .literal _ => if w.toNat < 128 then .printableCharacter w else .genericLiteral w
    | .invalid _ => .genericLiteral w

/-- One line of the trace listing: "for each memory word, its address, raw value, and decoded
mnemonic/annotation" (60_exceptions.md R186), as data. -/
def State.traceLine (s : State) (a : Nat) : Nat × Word × DisplayClass := (a, s.cell a, displayClass (s.cell a))

/-- The trace listing of the whole memory, "produced once before execution begins" (60_exceptions.md R186). -/
def State.traceListing (s : State) : List (Nat × Word × DisplayClass) := (List.range memWords).map s.traceLine

end Sys2Proof.Machine
end

