-- ==== Sys2Proof/Safety.lean ====
section
/-! DEFINITION. The terms in which claims about this machine are stated: code in memory, the first bad operand,
the four ways a step ends, the invariants, and what a safe run is. -/

namespace Sys2Proof.Machine

/-! ## Code in memory -/

/-- The Words of `n` cells from an address upward. -/
def State.cells (s : State) (a n : Nat) : List Word := (List.range n).map fun j => s.cell (a + j)

/-- The Words `ws` lie at the pc, all of them inside the memory. -/
abbrev State.codeAt (s : State) (ws : List Word) : Prop :=
  s.pc.toNat + ws.length ≤ memWords ∧ s.cells s.pc.toNat ws.length = ws

/-! ## Operand faults -/

/-- The fault an operand raises in its role, if it raises one (60_exceptions.md R162, R163). -/
def operandFault : Role × Operand → Option FaultKind
  | (.dest, .register _) => none
  | (.dest, .literal _) => some .invalidDestination
  | (.dest, .invalid _) => some .invalidOperand
  | (.source, .literal _) => none
  | (.source, .register _) => none
  | (.source, .invalid _) => some .invalidOperand

/-- The fault of the first operand, in positional order, that raises one (40_execution_cycle.md R86). -/
def firstOperandFault (i : Instr) : Option FaultKind := i.operands.findSome? operandFault

/-- The execution faults an instruction can raise once its operands are good (60_exceptions.md R173, last
column). -/
def executionFaults : Instr → List FaultKind
  | .halt => []
  | .set _ _ => []
  | .push _ => [.stackOverflow]
  | .pop _ => [.stackUnderflow]
  | .eq _ _ _ => []
  | .gt _ _ _ => []
  | .jmp _ => []
  | .jt _ _ => []
  | .jf _ _ => []
  | .add _ _ _ => []
  | .mult _ _ _ => []
  | .mod _ _ _ => [.modByZero]
  | .and _ _ _ => []
  | .or _ _ _ => []
  | .not _ _ => []
  | .rmem _ _ => [.outOfRangeAddress]
  | .wmem _ _ => [.outOfRangeAddress]
  | .call _ => [.stackOverflow]
  | .ret => []
  | .out _ => []
  | .inp _ => []
  | .noop => []

/-! ## The ends of a step (40_execution_cycle.md R92) -/

/-- The core waits: the instruction at the pc is an `in` with a valid destination, and the device has no
character (60_exceptions.md R183). -/
def State.waiting (s : State) : Prop := s.run = .running ∧ s.input = .finite [] ∧ ∃ d, s.fetch = .ok (.inp (.register d))

/-- Halted or Faulted: nothing executes (00_scope.md R11, 40_execution_cycle.md R90). -/
def State.terminal (s : State) : Prop := s.run ≠ .running

/-- The normal end: Halted (60_exceptions.md R177, R178). -/
def State.endedNormally (s : State) : Prop := s.run = .halted

/-! ## Invariants -/

/-- Word Memory is in its canonical form. -/
def State.memoryWf (s : State) : Prop := s.mem.wf s.cfg.memFill = true

/-- The status registers agree (10_state.md R33, R34; 60_exceptions.md R177): a fault kind is recorded
exactly in Faulted, with the fault pc equal to the pc; else both are 0. -/
def State.statusConsistent (s : State) : Prop :=
  (s.run = .faulted → s.faultKind ≠ none ∧ s.faultPc = s.pc) ∧
  (s.run ≠ .faulted → s.faultKind = none ∧ s.faultPc = 0#16)

/-- The stack holds at most `STACK_DEPTH` entries (10_state.md R28). -/
def State.stackWithinDepth (s : State) : Prop := ∀ d, s.cfg.stackDepth = some d → s.stack.length ≤ d

/-- A canonical value: at most 32767 (00_scope.md R11). -/
abbrev canonical (w : Word) : Prop := w.toNat ≤ 32767

/-- Every register, stack entry and memory Word is canonical (10_state.md R23). -/
def State.canonicalValues (s : State) : Prop :=
  (∀ r, canonical (s.readReg r)) ∧ (∀ w ∈ s.stack, canonical w) ∧ ∀ a, canonical (s.cell a)

/-- A `call` is about to execute at address 32766, the one instruction that makes a value above 32767 out of
canonical ones (10_state.md R23). -/
def State.callAtLastAddress (s : State) : Prop := s.pc.toNat = 32766 ∧ ∃ a, s.fetch = .ok (.call a)

/-! ## Runs -/

/-- A sequence of instructions executed one after another, wherever they stand in memory. -/
def execAll : List Instr → State → Host.Outcome State Fault Refusal
  | [], s => .next s
  | i :: is, s =>
    match exec i s with
    | .next t => execAll is t
    | .fault f => .fault f
    | .refused r => .refused r

/-- A run is safe when no number of steps from its state ends in Faulted (60_exceptions.md R178). -/
def State.safe (s : State) : Prop := ∀ n t, Host.Core.run Sys2Proof.core n s = .next t → t.run ≠ .faulted

/-- A run from a state halts: it ends normally after some number of steps (70_reset_and_hazards.md R198). -/
def State.halts (s : State) : Prop := ∃ n t, Host.Core.run Sys2Proof.core n s = .next t ∧ t.endedNormally

end Sys2Proof.Machine
end

