-- ==== Sys2Proof/Certificates/Slice0/Obligations.lean ====
section
/-! DEFINITION. The statements about this model, in the order of OBLIGATIONS.json. -/

open Sys2Proof Sys2Proof.Machine

/-! ## The `Exceptions` paragraph of the instruction rules

One definition for each combination of operand roles. `op` is the opcode Word and `mk` the instruction made of the
operands; the last clause of each is the operand fetch past address 32767. -/

/-- Destination and two sources: `InvalidDestination` if `a` <= 32767; `InvalidOperand` if any of `a`, `b`, `c`
>= 32776; `OutOfRangeAddress` if `p` > 32764. -/
def Sys2Proof.Machine.ExceptionsDSS (op : Word) (mk : Operand → Operand → Operand → Instr) : Prop :=
  ∀ (s : State) (a b c : Word),
    (a.toNat ≤ 32767 →
      exec (mk (decodeOperand a) (decodeOperand b) (decodeOperand c)) s = .next (s.raise .invalidDestination)) ∧
    (32776 ≤ a.toNat →
      exec (mk (decodeOperand a) (decodeOperand b) (decodeOperand c)) s = .next (s.raise .invalidOperand)) ∧
    (32768 ≤ a.toNat → a.toNat ≤ 32775 → 32776 ≤ b.toNat ∨ 32776 ≤ c.toNat →
      exec (mk (decodeOperand a) (decodeOperand b) (decodeOperand c)) s = .next (s.raise .invalidOperand)) ∧
    (s.run = .running → s.cell s.pc.toNat = op → 32764 < s.pc.toNat → s.pc.toNat ≤ 32767 →
      step s = .next (s.raise .outOfRangeAddress))

/-- Destination and one source: `InvalidDestination` if `a` <= 32767; `InvalidOperand` if `a` >= 32776 or `b` >=
32776; `OutOfRangeAddress` if `p` > 32765. -/
def Sys2Proof.Machine.ExceptionsDS (op : Word) (mk : Operand → Operand → Instr) : Prop :=
  ∀ (s : State) (a b : Word),
    (a.toNat ≤ 32767 → exec (mk (decodeOperand a) (decodeOperand b)) s = .next (s.raise .invalidDestination)) ∧
    (32776 ≤ a.toNat → exec (mk (decodeOperand a) (decodeOperand b)) s = .next (s.raise .invalidOperand)) ∧
    (32768 ≤ a.toNat → a.toNat ≤ 32775 → 32776 ≤ b.toNat →
      exec (mk (decodeOperand a) (decodeOperand b)) s = .next (s.raise .invalidOperand)) ∧
    (s.run = .running → s.cell s.pc.toNat = op → 32765 < s.pc.toNat → s.pc.toNat ≤ 32767 →
      step s = .next (s.raise .outOfRangeAddress))

/-- Two sources: `InvalidOperand` if `a` >= 32776 or `b` >= 32776; `OutOfRangeAddress` if `p` > 32765. -/
def Sys2Proof.Machine.ExceptionsSS (op : Word) (mk : Operand → Operand → Instr) : Prop :=
  ∀ (s : State) (a b : Word),
    (32776 ≤ a.toNat ∨ 32776 ≤ b.toNat →
      exec (mk (decodeOperand a) (decodeOperand b)) s = .next (s.raise .invalidOperand)) ∧
    (s.run = .running → s.cell s.pc.toNat = op → 32765 < s.pc.toNat → s.pc.toNat ≤ 32767 →
      step s = .next (s.raise .outOfRangeAddress))

/-- One destination: `InvalidDestination` if `a` <= 32767; `InvalidOperand` if `a` >= 32776; `OutOfRangeAddress` if
`p` = 32767. -/
def Sys2Proof.Machine.ExceptionsD (op : Word) (mk : Operand → Instr) : Prop :=
  ∀ (s : State) (a : Word),
    (a.toNat ≤ 32767 → exec (mk (decodeOperand a)) s = .next (s.raise .invalidDestination)) ∧
    (32776 ≤ a.toNat → exec (mk (decodeOperand a)) s = .next (s.raise .invalidOperand)) ∧
    (s.run = .running → s.cell s.pc.toNat = op → s.pc.toNat = 32767 → step s = .next (s.raise .outOfRangeAddress))

/-- One source: `InvalidOperand` if `a` >= 32776; `OutOfRangeAddress` if `p` = 32767. -/
def Sys2Proof.Machine.ExceptionsS (op : Word) (mk : Operand → Instr) : Prop :=
  ∀ (s : State) (a : Word),
    (32776 ≤ a.toNat → exec (mk (decodeOperand a)) s = .next (s.raise .invalidOperand)) ∧
    (s.run = .running → s.cell s.pc.toNat = op → s.pc.toNat = 32767 → step s = .next (s.raise .outOfRangeAddress))

/-! ## Encoding -/

/-- Decoding the Words of any instruction, with any Words after them, gives that instruction and those Words. -/
def Obligations.DecodeOfEncodeGivesTheInstruction : Prop :=
  ∀ (i : Instr) (rest : List Word), decode (encode i ++ rest) = .ok (i, rest)

/-- A list of Words that decodes is the Words of the decoded instruction followed by the Words left over: each
instruction has one encoding. -/
def Obligations.EncodeOfDecodeGivesTheWords : Prop :=
  ∀ (ws rest : List Word) (i : Instr), decode ws = .ok (i, rest) → encode i ++ rest = ws

/-- Words written out from the spec's encodings decode to the instructions they stand for. -/
def Obligations.WrittenOutWordsDecode : Prop :=
  decode [1#16, 32769#16, 1234#16] = .ok (.set (.register 1) (.literal 1234#15), []) ∧
  decode [9#16, 32768#16, 32769#16, 4#16] = .ok (.add (.register 0) (.register 1) (.literal 4#15), []) ∧
  decode [4#16, 32768#16, 32769#16, 10#16] = .ok (.eq (.register 0) (.register 1) (.literal 10#15), []) ∧
  decode [7#16, 32768#16, 3#16] = .ok (.jt (.register 0) (.literal 3#15), []) ∧
  decode [16#16, 5#16, 32768#16] = .ok (.wmem (.literal 5#15) (.register 0), []) ∧
  decode [19#16, 97#16, 0#16] = .ok (.out (.literal 97#15), [0#16]) ∧
  decode [22#16] = .error (.unknownOpcode 22#16)

/-- 30_encoding.md R63: the class of an operand Word by its value, with the value or the register number of its bits;
bit 15 is clear exactly in a literal, and a register is `1000 0000 0000 0rrr`. -/
def Obligations.OperandClassesFollowTheirRanges : Prop :=
  ∀ w : Word,
    (w.toNat ≤ 32767 → ∃ v : BitVec 15, decodeOperand w = .literal v ∧ v.toNat = w.toNat ∧ v.setWidth 16 = w ∧
      w.getLsbD 15 = false) ∧
    (32768 ≤ w.toNat → w.toNat ≤ 32775 → ∃ r : RegIndex, decodeOperand w = .register r ∧
      r.val = w.toNat - 32768 ∧ r.val = (w.extractLsb 2 0).toNat ∧ w.extractLsb 15 3 = 0x1000#13) ∧
    (32776 ≤ w.toNat → (∃ k, decodeOperand w = .invalid k) ∧ w.getLsbD 15 = true ∧ w.extractLsb 14 3 ≠ 0#12)

/-- 30_encoding.md R62: the opcode Word is compared on all 16 bits; 0..21 select an instruction, every other value is
unknown, and a valid opcode Word has bits 15:5 zero. -/
def Obligations.OpcodeWordIsComparedWhole : Prop :=
  ∀ (op a b c : Word),
    (op.toNat ≤ 21 → (∃ i rest, decode [op, a, b, c] = .ok (i, rest) ∧ i.opcode = op) ∧ op.extractLsb 15 5 = 0#11 ∧
      (op.extractLsb 4 0).toNat ≤ 21) ∧
    (22 ≤ op.toNat → decode [op, a, b, c] = .error (.unknownOpcode op))

/-! ## The Operand Resolver -/

/-- 40_execution_cycle.md R84: `Resolve(w)` is the Word itself, the register's 16 bits, or `InvalidOperand`. -/
def Obligations.ResolveReadsALiteralOrARegister : Prop :=
  ∀ (s : State) (w : Word),
    (w.toNat ≤ 32767 → s.resolve (decodeOperand w) = .ok w) ∧
    (∀ r : RegIndex, w.toNat = 32768 + r.val → s.resolve (decodeOperand w) = .ok s.regs[r] ∧
      ∀ v, (s.writeReg r v).resolve (decodeOperand w) = .ok v) ∧
    (32776 ≤ w.toNat → s.resolve (decodeOperand w) = .error .invalidOperand)

/-- 40_execution_cycle.md R85: `Dest(w)` is a register index, or `InvalidDestination` for a literal, or
`InvalidOperand`. -/
def Obligations.DestNamesARegister : Prop :=
  ∀ w : Word,
    (w.toNat ≤ 32767 → destReg (decodeOperand w) = .error .invalidDestination) ∧
    (∀ r : RegIndex, w.toNat = 32768 + r.val → destReg (decodeOperand w) = .ok r) ∧
    (32776 ≤ w.toNat → destReg (decodeOperand w) = .error .invalidOperand)

/-- 40_execution_cycle.md R86: every operand is resolved in the order a, b, c, used or not, before any execution fault
is considered; the first that fails raises its fault and ends the step. -/
def Obligations.FirstBadOperandEndsTheStep : Prop :=
  ∀ (s : State) (i : Instr) (k : FaultKind), s.run = .running → s.fetch = .ok i → firstOperandFault i = some k →
    step s = .next (s.raise k)

/-! ## Word Memory -/

/-- 20_memory.md R41: `MemRead` is `OutOfRangeAddress` above 32767, else all 16 bits of the cell. -/
def Obligations.MemReadChecksTheAddress : Prop :=
  ∀ (s : State) (addr : Word),
    (32767 < addr.toNat → s.memRead addr = .error .outOfRangeAddress) ∧
    (addr.toNat ≤ 32767 → s.memRead addr = .ok (s.cell addr.toNat))

/-- 20_memory.md R42: `MemWrite` is `OutOfRangeAddress` above 32767; else the cell becomes `v`, no other cell changes,
and nothing but memory changes. -/
def Obligations.MemWriteChangesOneCell : Prop :=
  ∀ (s : State) (addr v : Word),
    (32767 < addr.toNat → s.memWrite addr v = .error .outOfRangeAddress) ∧
    (addr.toNat ≤ 32767 → ∃ t, s.memWrite addr v = .ok t ∧ t.cell addr.toNat = v ∧
      (∀ x, x ≠ addr.toNat → t.cell x = s.cell x) ∧ t = { s with mem := t.mem })

/-- Memory keeps its canonical form in every step, so equal memories stay equal lists. -/
def Obligations.EveryStepKeepsMemoryCanonical : Prop :=
  ∀ s t : State, s.memoryWf → step s = .next t → t.memoryWf

/-- A Word stored by `wmem` is what the next read and the very next fetch of that address see, and a `wmem` that
overwrites its own Words completes (20_memory.md section 6). -/
def Obligations.AStoredWordIsSeenByTheNextFetch : Prop :=
  ∀ (s : State) (a b va vb : Word), s.run = .running → s.codeAt [16#16, a, b] →
    s.resolve (decodeOperand a) = .ok va → s.resolve (decodeOperand b) = .ok vb → va.toNat ≤ 32767 →
    ∃ t, step s = .next t ∧ t.pc = s.pc + 3#16 ∧ t.memRead va = .ok vb ∧
      (∀ x, x ≠ va.toNat → t.cell x = s.cell x) ∧
      (va = s.pc + 3#16 → vb = 21#16 → step t = .next { t with pc := t.pc + 1#16 }) ∧
      (va = s.pc + 3#16 → 22 ≤ vb.toNat → step t = .next (t.raise .unknownOpcode))

/-! ## The step -/

/-- When the Words at the pc decode to an instruction, a step executes it: nothing is added around `exec`. -/
def Obligations.AStepRunsTheDecodedInstruction : Prop :=
  ∀ (s : State) (ws : List Word) (i : Instr), s.run = .running → s.codeAt ws → decode ws = .ok (i, []) →
    step s = exec i s

/-- 40_execution_cycle.md R82: an opcode Word 0..21 selects its instruction and operand count; any other value raises
`UnknownOpcode` with `FAULT_PC` = pc, and no operand Word is read (address 32767 included). -/
def Obligations.DispatchSelectsByOpcode : Prop :=
  ∀ (s : State), s.run = .running → s.pc.toNat ≤ 32767 →
    (22 ≤ (s.cell s.pc.toNat).toNat → step s = .next (s.raise .unknownOpcode)) ∧
    ((s.cell s.pc.toNat).toNat ≤ 21 → ∃ row, opcodeRow (s.cell s.pc.toNat) = some row ∧
      (s.pc.toNat + row.shape.operandCount ≤ 32767 → ∃ i, i.opcode = s.cell s.pc.toNat ∧
        i.operands.length = row.shape.operandCount ∧ step s = exec i s))

/-- 40_execution_cycle.md R83: the operand Words are the `n` Words after the opcode Word; the fetch raises
`OutOfRangeAddress` with `FAULT_PC` = pc exactly when the opcode Word lies above `32767 - n`. -/
def Obligations.OperandFetchStopsAtTheTopOfMemory : Prop :=
  ∀ (s : State) (row : OpRow), s.run = .running → s.pc.toNat ≤ 32767 →
    opcodeRow (s.cell s.pc.toNat) = some row →
    (32767 - row.shape.operandCount < s.pc.toNat → step s = .next (s.raise .outOfRangeAddress)) ∧
    (s.pc.toNat ≤ 32767 - row.shape.operandCount →
      ∃ i, s.fetch = .ok i ∧ encode i = s.cells s.pc.toNat (1 + row.shape.operandCount))

/-- 40_execution_cycle.md R90: in Halted and Faulted nothing happens, however many steps are tried. -/
def Obligations.TerminalStatesAbsorb : Prop :=
  ∀ (s : State) (n : Nat), s.run ≠ .running → Host.Core.run core n s = .next s

/-- 40_execution_cycle.md R92: a step of a running core has exactly one of four outcomes. -/
def Obligations.AStepHasOneOfFourOutcomes : Prop :=
  ∀ s : State, s.run = .running → ∃ t, step s = .next t ∧
    ((t.run = .running ∧ ¬ s.waiting) ∨
     (t.run = .halted ∧ ¬ s.waiting ∧ (s.fetch = .ok .halt ∨ s.fetch = .ok .ret ∧ s.stack = [])) ∨
     (t.run = .faulted ∧ ¬ s.waiting ∧ ∃ k, t = s.raise k) ∨
     (s.waiting ∧ t = s))

/-- 60_exceptions.md R171: the priority of the fault conditions, in the order of the phases of the step. -/
def Obligations.FaultPriorityIsThePhaseOrder : Prop :=
  ∀ s : State, s.run = .running →
    (32767 < s.pc.toNat → step s = .next (s.raise .outOfRangeAddress)) ∧
    (s.pc.toNat ≤ 32767 → 22 ≤ (s.cell s.pc.toNat).toNat → step s = .next (s.raise .unknownOpcode)) ∧
    (∀ row, s.pc.toNat ≤ 32767 → opcodeRow (s.cell s.pc.toNat) = some row →
      32767 < s.pc.toNat + row.shape.operandCount → step s = .next (s.raise .outOfRangeAddress)) ∧
    (∀ i k, s.fetch = .ok i → firstOperandFault i = some k → step s = .next (s.raise k)) ∧
    (∀ i t, s.fetch = .ok i → firstOperandFault i = none → step s = .next t → t.run = .faulted →
      ∃ k, executionFaults i = [k] ∧ t = s.raise k)

/-- 60_exceptions.md R173: which faults a step can raise, before the opcode is known and for each instruction. -/
def Obligations.EachInstructionRaisesItsOwnFaults : Prop :=
  ∀ (s t : State), s.run = .running → step s = .next t → t.run = .faulted →
    (∀ k, s.fetch = .error k → t = s.raise k ∧ (k = .outOfRangeAddress ∨ k = .unknownOpcode)) ∧
    (∀ i, s.fetch = .ok i → ∃ k, t = s.raise k ∧
      ((k = .invalidDestination ∧ ∃ o, (Role.dest, o) ∈ i.operands) ∨ (k = .invalidOperand ∧ i.operands ≠ []) ∨
        k ∈ executionFaults i))

/-! ## Faults, halt and status -/

/-- 40_execution_cycle.md R88: a step that raises a fault changes only `RUN`, `FAULT_KIND` and `FAULT_PC`, and leaves
`FAULT_PC` at the pc of the instruction. -/
def Obligations.AFaultingStepChangesOnlyTheStatus : Prop :=
  ∀ s t : State, s.run = .running → step s = .next t → t.run = .faulted →
    ∃ k, t = { s with run := .faulted, faultKind := some k, faultPc := s.pc }

/-- 60_exceptions.md R161: the code of each fault kind, as the host reads it after fault entry. -/
def Obligations.FaultKindsHaveTheirCodes : Prop :=
  ∀ s : State,
    (s.raise .invalidOperand).faultCode = 1#3 ∧ (s.raise .invalidDestination).faultCode = 2#3 ∧
    (s.raise .stackUnderflow).faultCode = 3#3 ∧ (s.raise .outOfRangeAddress).faultCode = 4#3 ∧
    (s.raise .unknownOpcode).faultCode = 5#3 ∧ (s.raise .modByZero).faultCode = 6#3 ∧
    (s.raise .stackOverflow).faultCode = 7#3 ∧ (∀ k, (s.raise k).runCode = 2#2 ∧ (s.raise k).faultPc = s.pc) ∧
    (s.faultKind = none → s.faultCode = 0#3)

/-- 60_exceptions.md R177: Halted is reached in exactly two ways, nothing but `RUN` changes, `FAULT_KIND` and
`FAULT_PC` are still 0, and Halted is terminal. -/
def Obligations.HaltedIsReachedInTwoWays : Prop :=
  ∀ s t : State, s.run = .running → step s = .next t →
    (t.run = .halted ↔ s.fetch = .ok .halt ∨ s.fetch = .ok .ret ∧ s.stack = []) ∧
    (t.run = .halted → t = { s with run := .halted } ∧ (s.statusConsistent → t.faultCode = 0#3 ∧ t.faultPc = 0#16) ∧
      ∀ u, step t = .next u → u = t)

/-- `FAULT_KIND` is recorded exactly in Faulted, where `FAULT_PC` equals the pc; every step keeps this
(10_state.md section 5). -/
def Obligations.EveryStepKeepsTheStatusConsistent : Prop :=
  ∀ s t : State, s.statusConsistent → step s = .next t → t.statusConsistent

/-- The reset state meets every invariant stated here. -/
def Obligations.ResetMeetsTheInvariants : Prop :=
  State.reset.memoryWf ∧ State.reset.statusConsistent ∧ State.reset.stackWithinDepth ∧
    State.reset.canonicalValues

/-! ## Reset and loading -/

/-- 10_state.md R39: the value of every piece of state after reset with an image and an input, finite or infinite. -/
def Obligations.ResetGivesTheTableOfValues : Prop :=
  ∀ (image : List Word) (input : InputSeq), image.length ≤ 32768 →
    ∃ s, State.start Config.standard image input = some s ∧ (∀ r, s.readReg r = 0#16) ∧ s.pc = 0#16 ∧
      s.stack = [] ∧ (∀ (i : Nat) (h : i < image.length), s.cell i = image[i]) ∧
      (∀ i, image.length ≤ i → i ≤ 32767 → s.cell i = 0x0000#16) ∧ s.run = .running ∧ s.runCode = 0#2 ∧
      s.faultKind = none ∧ s.faultCode = 0#3 ∧ s.faultPc = 0#16 ∧ s.output = [] ∧ s.input = input

/-- Loading with any parameters keeps the memory canonical and the values meet the invariants; an image of more than
32768 Words is refused, and `State.reset` is the reset with the standard parameters, the empty image and the
empty input (the last is the model's choice, log 4 and log 8). -/
def Obligations.LoadingMeetsTheInvariants : Prop :=
  ∀ (cfg : Config) (image : List Word) (input : InputSeq),
    (32768 < image.length → State.start cfg image input = none) ∧
    (∀ s, State.start cfg image input = some s → s.memoryWf ∧ s.statusConsistent ∧ s.stackWithinDepth) ∧
    State.start Config.standard [] (.finite []) = some State.reset

/-- 20_memory.md R49: Word `i` of an image file is `byte[2*i] + 256 * byte[2*i + 1]`; an odd number of bytes is no
image. -/
def Obligations.ImageBytesAreLittleEndian : Prop :=
  ∀ bs : List Byte,
    (bs.length % 2 = 1 → wordsOfBytes bs = none) ∧
    (bs.length % 2 = 0 → ∃ ws, wordsOfBytes bs = some ws ∧ ws.length = bs.length / 2 ∧
      ∀ i < ws.length, (ws.getD i 0#16).toNat = (bs.getD (2 * i) 0#8).toNat + 256 * (bs.getD (2 * i + 1) 0#8).toNat)

/-- From canonical registers, stack entries and memory Words, a step that is not a `call` at address 32766 leaves them
canonical (10_state.md section 2). -/
def Obligations.EveryStepKeepsCanonicalValues : Prop :=
  ∀ s t : State, s.canonicalValues → ¬ s.callAtLastAddress → step s = .next t → t.canonicalValues

/-! ## What an instruction leaves unchanged, field by field, for all 22 instructions -/

/-- Registers: `set`, `pop`, `eq`, `gt`, `add`, `mult`, `mod`, `and`, `or`, `not`, `rmem` and `in` can change only the
register their operand `a` names; the other ten instructions change none. -/
def Obligations.OnlyTheDestinationRegisterChanges : Prop :=
  ∀ (i : Instr) (s t : State), exec i s = .next t →
    (∀ r, (Role.dest, Operand.register r) ∉ i.operands → t.readReg r = s.readReg r) ∧
    (i.opcode.toNat ∈ [0, 2, 6, 7, 8, 16, 17, 18, 19, 21] → t.regs = s.regs)

/-- Memory: `wmem` can change only the cell its operand `a` addresses; every other instruction changes none. -/
def Obligations.OnlyTheStoredCellChanges : Prop :=
  ∀ (i : Instr) (s t : State), exec i s = .next t →
    ((∀ a b, i ≠ .wmem a b) → ∀ x, t.cell x = s.cell x) ∧
    (∀ a b va, i = .wmem a b → s.resolve a = .ok va → ∀ x, x ≠ va.toNat → t.cell x = s.cell x) ∧
    (∀ a b k, i = .wmem a b → s.resolve a = .error k → ∀ x, t.cell x = s.cell x)

/-- Stack: only `push`, `pop`, `call` and `ret` change it; `push` and `call` add at most one entry on top of it, `pop`
and `ret` take at most the top entry. -/
def Obligations.OnlyStackInstructionsChangeTheStack : Prop :=
  ∀ (i : Instr) (s t : State), exec i s = .next t →
    (t.stack = s.stack) ∨
    ((∃ a v, i = .push a ∧ s.resolve a = .ok v ∧ t.stack = s.stack ++ [v]) ∨
     (∃ a, i = .call a ∧ t.stack = s.stack ++ [s.pc + 2#16]) ∨
     (∃ a v, i = .pop a ∧ s.stack = t.stack ++ [v]) ∨
     (∃ v, i = .ret ∧ s.stack = t.stack ++ [v]))

/-- Output, input, parameters and status: only `out` adds to the output, and one character; only `in` takes from the
input, and one character; no instruction changes the parameters; `RUN`, `FAULT_KIND` and `FAULT_PC` change only
by fault entry and by the halt of `halt` and `ret`. -/
def Obligations.StreamsParametersAndStatusChangeOnlyAsListed : Prop :=
  ∀ (i : Instr) (s t : State), exec i s = .next t →
    (t.output = s.output ∨ ∃ a v, i = .out a ∧ s.resolve a = .ok v ∧ t.output = s.output ++ [v.setWidth 8]) ∧
    (t.input = s.input ∨ ∃ d ch, i = .inp (.register d) ∧ s.input.take = some (ch, t.input)) ∧
    t.cfg = s.cfg ∧
    ((t.run = s.run ∧ t.faultKind = s.faultKind ∧ t.faultPc = s.faultPc) ∨ (∃ k, t = s.raise k) ∨
      (t = s.haltNow ∧ (i = .halt ∨ i = .ret ∧ s.stack = [])))

/-- The stack never holds more than `STACK_DEPTH` entries: every step keeps the bound. -/
def Obligations.EveryStepKeepsTheStackWithinDepth : Prop :=
  ∀ s t : State, s.stackWithinDepth → step s = .next t → t.stackWithinDepth

/-! ## Sequences and whole-machine rules -/

/-- With an unbounded stack, pushing a sequence of values leaves it on top of the stack in that order, and as many pops
into a register take it off again, the last of them delivering the value pushed first (41_data_movement_stack.md
rule R103's stack discipline). -/
def Obligations.PopsReturnPushesInReverseOrder : Prop :=
  (∀ (vs : List (BitVec 15)) (s : State), s.cfg.stackDepth = none →
    ∃ t, execAll (vs.map fun v => .push (.literal v)) s = .next t ∧
      t.stack = s.stack ++ vs.map (·.setWidth 16) ∧ t.regs = s.regs) ∧
  (∀ (vs st : List Word) (d : RegIndex) (s : State), s.stack = st ++ vs →
    ∃ t, execAll (List.replicate vs.length (.pop (.register d))) s = .next t ∧ t.stack = st ∧
      (∀ v vs', vs = v :: vs' → t.readReg d = v) ∧ (∀ r, r ≠ d → t.readReg r = s.readReg r))

/-- `call`, then `ret` from any state with the stack the `call` left, returns to the instruction after the `call` with
the stack as it was before it (43_control_transfer.md section 2). -/
def Obligations.RetReturnsToTheInstructionAfterTheCall : Prop :=
  ∀ (s u : State) (a : Operand) (va : Word), s.resolve a = .ok va →
    (∀ d, s.cfg.stackDepth = some d → s.stack.length < d) →
    ∃ t, exec (.call a) s = .next t ∧ t.pc = va ∧
      (u.stack = t.stack → exec .ret u = .next { u with stack := s.stack, pc := s.pc + 2#16 })

/-- 30_encoding.md R71: the display class of a Word in isolation. -/
def Obligations.DisplayClassesFollowTheirRanges : Prop :=
  ∀ w : Word,
    (∀ row, w.toNat ≤ 21 → opcodeRow w = some row → displayClass w = .mnemonic row.mnemonic) ∧
    (w.toNat ≤ 21 → ∃ row, opcodeRow w = some row) ∧
    (22 ≤ w.toNat → w.toNat ≤ 127 → displayClass w = .printableCharacter w) ∧
    (∀ r : RegIndex, w.toNat = 32768 + r.val → displayClass w = .registerLabel r) ∧
    (128 ≤ w.toNat → w.toNat ≤ 32767 ∨ 32776 ≤ w.toNat → displayClass w = .genericLiteral w)

/-- Nothing outside the core changes the course of a run except by what `in` returns, and no instruction reads the
output: a step that executes no `in` does the same whatever the input still to come and the output so far
(60_exceptions.md section 2, 10_state.md section 1). `n` steps reach at most `n` characters of the input: with any
other input that begins with these `n`, finite or infinite, they do the same. And a run on an infinite input
given as an argument, character by character, is the run of a state whose input holds these characters. -/
def Obligations.OnlyInputThroughInReachesTheCore : Prop :=
  (∀ (s t : State) (input : InputSeq) (before : List Byte), (∀ a, s.fetch ≠ .ok (.inp a)) → step s = .next t →
    step { s with input := input, output := before ++ s.output } =
      .next { t with input := input, output := before ++ t.output }) ∧
  (∀ (s : State) (n : Nat) (input : InputSeq), (∀ k < n, input.char? k = s.input.char? k) →
    ∃ t rest, Host.Core.run core n s = .next t ∧
      Host.Core.run core n { s with input := input } = .next { t with input := rest }) ∧
  (∀ (s : State) (n : Nat) (chars : Nat → Byte), (∀ k < n, s.input.char? k = some (chars k)) →
    ∃ t rest, Host.Core.run core n s = .next t ∧ runOn chars n s = .next { t with input := rest })

/-- 60_exceptions.md R183: an `in` with a valid destination and no character holds the core, nothing changing, for any
number of steps; one character that arrives completes it as R152 says. -/
def Obligations.AWaitingInWakesOnACharacter : Prop :=
  ∀ (s : State) (d : RegIndex) (ch : Byte) (n : Nat), s.run = .running → s.fetch = .ok (.inp (.register d)) →
    s.input = .finite [] →
    Host.Core.run core n s = .next s ∧
    step (s.deliver ch) = .next { s with regs := s.regs.set d (ch.setWidth 16), pc := s.pc + 2#16 }

/-! ## One rule for each instruction: its encoding, its effect, its exceptions -/

/-- 46_system_io.md R150, `halt`; the last clause: no step changes a Halted state. -/
def Obligations.HaltStopsTheMachine : Prop :=
  decode [0#16] = .ok (.halt, []) ∧
  ∀ s : State, exec .halt s = .next { s with run := .halted } ∧
    ∀ t, step { s with run := .halted } = .next t → t = { s with run := .halted }

/-- 41_data_movement_stack.md R100, `set`. -/
def Obligations.SetCopiesAValue : Prop :=
  (∀ a b, decode [1#16, a, b] = .ok (.set (decodeOperand a) (decodeOperand b), [])) ∧
  (∀ (s : State) (d : RegIndex) (b : Operand) (vb : Word), s.resolve b = .ok vb →
    exec (.set (.register d) b) s = .next { s with regs := s.regs.set d vb, pc := s.pc + 3#16 }) ∧
  ExceptionsDS 1#16 .set

/-- 41_data_movement_stack.md R101, `push`. -/
def Obligations.PushAppendsAValue : Prop :=
  (∀ a, decode [2#16, a] = .ok (.push (decodeOperand a), [])) ∧
  (∀ (s : State) (a : Operand) (va : Word), s.resolve a = .ok va →
    ((∀ d, s.cfg.stackDepth = some d → s.stack.length < d) →
      exec (.push a) s = .next { s with stack := s.stack ++ [va], pc := s.pc + 2#16 }) ∧
    (s.cfg.stackDepth = some s.stack.length → exec (.push a) s = .next (s.raise .stackOverflow))) ∧
  ExceptionsS 2#16 .push

/-- 41_data_movement_stack.md R102, `pop`. -/
def Obligations.PopTakesTheTopEntry : Prop :=
  (∀ a, decode [3#16, a] = .ok (.pop (decodeOperand a), [])) ∧
  (∀ (s : State) (d : RegIndex),
    (∀ st v, s.stack = st ++ [v] →
      exec (.pop (.register d)) s = .next { s with stack := st, regs := s.regs.set d v, pc := s.pc + 2#16 }) ∧
    (s.stack = [] → exec (.pop (.register d)) s = .next (s.raise .stackUnderflow))) ∧
  ExceptionsD 3#16 .pop

/-- 42_compare.md R110, `eq`. -/
def Obligations.EqComparesAllSixteenBits : Prop :=
  (∀ a b c, decode [4#16, a, b, c] = .ok (.eq (decodeOperand a) (decodeOperand b) (decodeOperand c), [])) ∧
  (∀ (s : State) (d : RegIndex) (b c : Operand) (vb vc : Word), s.resolve b = .ok vb → s.resolve c = .ok vc →
    exec (.eq (.register d) b c) s =
      .next { s with regs := s.regs.set d (if vb.toNat = vc.toNat then 1#16 else 0#16), pc := s.pc + 4#16 }) ∧
  ExceptionsDSS 4#16 .eq

/-- 42_compare.md R111, `gt`. -/
def Obligations.GtComparesUnsigned : Prop :=
  (∀ a b c, decode [5#16, a, b, c] = .ok (.gt (decodeOperand a) (decodeOperand b) (decodeOperand c), [])) ∧
  (∀ (s : State) (d : RegIndex) (b c : Operand) (vb vc : Word), s.resolve b = .ok vb → s.resolve c = .ok vc →
    exec (.gt (.register d) b c) s =
      .next { s with regs := s.regs.set d (if vb.toNat > vc.toNat then 1#16 else 0#16), pc := s.pc + 4#16 }) ∧
  ExceptionsDSS 5#16 .gt

/-- 43_control_transfer.md R120, `jmp`; the second clause is its corner case of a target above 32767. -/
def Obligations.JmpGoesToItsTarget : Prop :=
  (∀ a, decode [6#16, a] = .ok (.jmp (decodeOperand a), [])) ∧
  (∀ (s : State) (a : Operand) (va : Word), s.resolve a = .ok va →
    exec (.jmp a) s = .next { s with pc := va } ∧
    (s.run = .running → 32767 < va.toNat →
      step { s with pc := va } = .next (State.raise { s with pc := va } .outOfRangeAddress))) ∧
  ExceptionsS 6#16 .jmp

/-- 43_control_transfer.md R121, `jt`. -/
def Obligations.JtJumpsWhenNonZero : Prop :=
  (∀ a b, decode [7#16, a, b] = .ok (.jt (decodeOperand a) (decodeOperand b), [])) ∧
  (∀ (s : State) (a b : Operand) (va vb : Word), s.resolve a = .ok va → s.resolve b = .ok vb →
    exec (.jt a b) s = .next { s with pc := if va.toNat ≠ 0 then vb else s.pc + 3#16 }) ∧
  ExceptionsSS 7#16 .jt

/-- 43_control_transfer.md R122, `jf`. -/
def Obligations.JfJumpsWhenZero : Prop :=
  (∀ a b, decode [8#16, a, b] = .ok (.jf (decodeOperand a) (decodeOperand b), [])) ∧
  (∀ (s : State) (a b : Operand) (va vb : Word), s.resolve a = .ok va → s.resolve b = .ok vb →
    exec (.jf a b) s = .next { s with pc := if va.toNat = 0 then vb else s.pc + 3#16 }) ∧
  ExceptionsSS 8#16 .jf

/-- 44_arithmetic_logic.md R131, `add`. -/
def Obligations.AddIsModulo32768 : Prop :=
  (∀ a b c, decode [9#16, a, b, c] = .ok (.add (decodeOperand a) (decodeOperand b) (decodeOperand c), [])) ∧
  (∀ (s : State) (d : RegIndex) (b c : Operand) (vb vc : Word), s.resolve b = .ok vb → s.resolve c = .ok vc →
    exec (.add (.register d) b c) s =
      .next { s with regs := s.regs.set d ((vb + vc) &&& 0x7FFF#16), pc := s.pc + 4#16 } ∧
    ((vb + vc) &&& 0x7FFF#16).toNat = (vb.toNat + vc.toNat) % 32768) ∧
  ExceptionsDSS 9#16 .add

/-- 44_arithmetic_logic.md R132, `mult`. -/
def Obligations.MultIsModulo32768 : Prop :=
  (∀ a b c, decode [10#16, a, b, c] = .ok (.mult (decodeOperand a) (decodeOperand b) (decodeOperand c), [])) ∧
  (∀ (s : State) (d : RegIndex) (b c : Operand) (vb vc : Word), s.resolve b = .ok vb → s.resolve c = .ok vc →
    exec (.mult (.register d) b c) s =
      .next { s with regs := s.regs.set d ((vb * vc) &&& 0x7FFF#16), pc := s.pc + 4#16 } ∧
    ((vb * vc) &&& 0x7FFF#16).toNat = (vb.toNat * vc.toNat) % 32768) ∧
  ExceptionsDSS 10#16 .mult

/-- 44_arithmetic_logic.md R133, `mod`. -/
def Obligations.ModIsTheMaskedRemainder : Prop :=
  (∀ a b c, decode [11#16, a, b, c] = .ok (.mod (decodeOperand a) (decodeOperand b) (decodeOperand c), [])) ∧
  (∀ (s : State) (d : RegIndex) (b c : Operand) (vb vc : Word), s.resolve b = .ok vb → s.resolve c = .ok vc →
    (vc.toNat ≠ 0 →
      exec (.mod (.register d) b c) s =
        .next { s with regs := s.regs.set d (BitVec.ofNat 16 (vb.toNat % vc.toNat % 32768)), pc := s.pc + 4#16 }) ∧
    (vc.toNat = 0 → exec (.mod (.register d) b c) s = .next (s.raise .modByZero))) ∧
  ExceptionsDSS 11#16 .mod

/-- 44_arithmetic_logic.md R134, `and`: bit by bit, with bit 15 clear. -/
def Obligations.AndIsBitwiseInFifteenBits : Prop :=
  (∀ a b c, decode [12#16, a, b, c] = .ok (.and (decodeOperand a) (decodeOperand b) (decodeOperand c), [])) ∧
  (∀ (s : State) (d : RegIndex) (b c : Operand) (vb vc : Word), s.resolve b = .ok vb → s.resolve c = .ok vc →
    ∃ r : Word, exec (.and (.register d) b c) s = .next { s with regs := s.regs.set d r, pc := s.pc + 4#16 } ∧
      (∀ j < 15, r.getLsbD j = (vb.getLsbD j && vc.getLsbD j)) ∧ r.getLsbD 15 = false) ∧
  ExceptionsDSS 12#16 .and

/-- 44_arithmetic_logic.md R135, `or`: bit by bit, with bit 15 clear. -/
def Obligations.OrIsBitwiseInFifteenBits : Prop :=
  (∀ a b c, decode [13#16, a, b, c] = .ok (.or (decodeOperand a) (decodeOperand b) (decodeOperand c), [])) ∧
  (∀ (s : State) (d : RegIndex) (b c : Operand) (vb vc : Word), s.resolve b = .ok vb → s.resolve c = .ok vc →
    ∃ r : Word, exec (.or (.register d) b c) s = .next { s with regs := s.regs.set d r, pc := s.pc + 4#16 } ∧
      (∀ j < 15, r.getLsbD j = (vb.getLsbD j || vc.getLsbD j)) ∧ r.getLsbD 15 = false) ∧
  ExceptionsDSS 13#16 .or

/-- 44_arithmetic_logic.md R136, `not`: 32767 minus the low 15 bits. -/
def Obligations.NotIsTheFifteenBitComplement : Prop :=
  (∀ a b, decode [14#16, a, b] = .ok (.not (decodeOperand a) (decodeOperand b), [])) ∧
  (∀ (s : State) (d : RegIndex) (b : Operand) (vb : Word), s.resolve b = .ok vb →
    exec (.not (.register d) b) s =
      .next { s with regs := s.regs.set d (BitVec.ofNat 16 (32767 - vb.toNat % 32768)), pc := s.pc + 3#16 }) ∧
  ExceptionsDS 14#16 .not

/-- 45_memory_access.md R140, `rmem`. -/
def Obligations.RmemReadsACell : Prop :=
  (∀ a b, decode [15#16, a, b] = .ok (.rmem (decodeOperand a) (decodeOperand b), [])) ∧
  (∀ (s : State) (d : RegIndex) (b : Operand) (vb : Word), s.resolve b = .ok vb →
    (vb.toNat ≤ 32767 →
      exec (.rmem (.register d) b) s =
        .next { s with regs := s.regs.set d (s.cell vb.toNat), pc := s.pc + 3#16 }) ∧
    (32767 < vb.toNat → exec (.rmem (.register d) b) s = .next (s.raise .outOfRangeAddress))) ∧
  ExceptionsDS 15#16 .rmem

/-- 45_memory_access.md R141, `wmem`. -/
def Obligations.WmemWritesACell : Prop :=
  (∀ a b, decode [16#16, a, b] = .ok (.wmem (decodeOperand a) (decodeOperand b), [])) ∧
  (∀ (s : State) (a b : Operand) (va vb : Word), s.resolve a = .ok va → s.resolve b = .ok vb →
    (va.toNat ≤ 32767 → ∃ m, exec (.wmem a b) s = .next { s with mem := m, pc := s.pc + 3#16 } ∧
      (State.cell { s with mem := m } va.toNat = vb) ∧
      ∀ x, x ≠ va.toNat → State.cell { s with mem := m } x = s.cell x) ∧
    (32767 < va.toNat → exec (.wmem a b) s = .next (s.raise .outOfRangeAddress))) ∧
  ExceptionsSS 16#16 .wmem

/-- 43_control_transfer.md R123, `call`. -/
def Obligations.CallPushesTheReturnAddress : Prop :=
  (∀ a, decode [17#16, a] = .ok (.call (decodeOperand a), [])) ∧
  (∀ (s : State) (a : Operand) (va : Word), s.resolve a = .ok va →
    ((∀ d, s.cfg.stackDepth = some d → s.stack.length < d) →
      exec (.call a) s = .next { s with stack := s.stack ++ [s.pc + 2#16], pc := va }) ∧
    (s.cfg.stackDepth = some s.stack.length → exec (.call a) s = .next (s.raise .stackOverflow))) ∧
  ExceptionsS 17#16 .call

/-- 43_control_transfer.md R124, `ret`. -/
def Obligations.RetPopsThePcOrHalts : Prop :=
  decode [18#16] = .ok (.ret, []) ∧
  ∀ s : State,
    (∀ st v, s.stack = st ++ [v] → exec .ret s = .next { s with stack := st, pc := v } ∧
      (s.run = .running → 32767 < v.toNat →
        step { s with stack := st, pc := v } =
          .next (State.raise { s with stack := st, pc := v } .outOfRangeAddress))) ∧
    (s.stack = [] → exec .ret s = .next { s with run := .halted })

/-- 46_system_io.md R151, `out`. -/
def Obligations.OutEmitsTheLowEightBits : Prop :=
  (∀ a, decode [19#16, a] = .ok (.out (decodeOperand a), [])) ∧
  (∀ (s : State) (a : Operand) (va : Word), s.resolve a = .ok va →
    exec (.out a) s =
      .next { s with output := s.output ++ [BitVec.ofNat 8 (va.toNat % 256)], pc := s.pc + 2#16 }) ∧
  ExceptionsS 19#16 .out

/-- 46_system_io.md R152, `in`: it takes the next character of a finite or infinite input, leaving those after it in
order, or waits with nothing changed. -/
def Obligations.InTakesOneCharacter : Prop :=
  (∀ a, decode [20#16, a] = .ok (.inp (decodeOperand a), [])) ∧
  (∀ (s : State) (d : RegIndex),
    (∀ ch rest, s.input = .finite (ch :: rest) →
      exec (.inp (.register d)) s = .next { s with regs := s.regs.set d (BitVec.ofNat 16 ch.toNat),
                                                   input := .finite rest, pc := s.pc + 2#16 }) ∧
    (∀ ch, s.input.char? 0 = some ch → ∃ rest, (∀ n, rest.char? n = s.input.char? (n + 1)) ∧
      exec (.inp (.register d)) s = .next { s with regs := s.regs.set d (BitVec.ofNat 16 ch.toNat),
                                                   input := rest, pc := s.pc + 2#16 }) ∧
    (s.input = .finite [] → exec (.inp (.register d)) s = .next s)) ∧
  ExceptionsD 20#16 .inp

/-- 46_system_io.md R153, `noop`. -/
def Obligations.NoopOnlyAdvancesThePc : Prop :=
  decode [21#16] = .ok (.noop, []) ∧
  ∀ s : State, exec .noop s = .next { s with pc := s.pc + 1#16 } ∧
    (s.run = .running → s.pc.toNat = 32767 → s.cell 32767 = 21#16 →
      step s = .next { s with pc := 32768#16 } ∧
      step { s with pc := 32768#16 } = .next (State.raise { s with pc := 32768#16 } .outOfRangeAddress))
end

