-- ==== Sys2Proof/Laws/Decode.lean ====
section
/-! SUPPORT. The operand classes and the opcode map: what a decoder's proof needs. -/

namespace Sys2Proof

theorem decodeOperand_of_lt {w : Word} (h : w.toNat < 32768) : decodeOperand w = .literal (w.setWidth 15) :=
  if_pos h

theorem decodeOperand_of_register {w : Word} (h : 32768 ≤ w.toNat) (h' : w.toNat < 32776) :
    decodeOperand w = .register ⟨w.toNat - 32768, by omega⟩ := by
  rw [decodeOperand, if_neg (by omega), dif_pos h']

theorem decodeOperand_of_ge {w : Word} (h : 32776 ≤ w.toNat) :
    decodeOperand w = .invalid ⟨w.toNat - 32776, by have := w.isLt; omega⟩ := by
  rw [decodeOperand, if_neg (by omega), dif_neg (by omega)]

/-- Every operand is read back from its Word. -/
@[simp] theorem decodeOperand_encodeOperand (o : Operand) : decodeOperand (encodeOperand o) = o := by
  cases o with
  | literal v =>
    have h : (v.setWidth 16).toNat = v.toNat := by
      rw [BitVec.toNat_setWidth, Nat.mod_eq_of_lt (by omega)]
    rw [encodeOperand, decodeOperand_of_lt (by omega)]
    congr 1
    exact BitVec.eq_of_toNat_eq (by rw [BitVec.toNat_setWidth, h, Nat.mod_eq_of_lt (by omega)])
  | register r =>
    have h : (BitVec.ofNat 16 (32768 + r.val)).toNat = 32768 + r.val := by
      rw [BitVec.toNat_ofNat, Nat.mod_eq_of_lt (by omega)]
    rw [encodeOperand, decodeOperand_of_register (by omega) (by omega)]
    exact congrArg Operand.register (Fin.ext (by simp only [h]; omega))
  | invalid k =>
    have h : (BitVec.ofNat 16 (32776 + k.val)).toNat = 32776 + k.val := by
      rw [BitVec.toNat_ofNat, Nat.mod_eq_of_lt (by omega)]
    rw [encodeOperand, decodeOperand_of_ge (by omega)]
    exact congrArg Operand.invalid (Fin.ext (by simp only [h]; omega))

/-- Every Word is the Word of its operand. -/
@[simp] theorem encodeOperand_decodeOperand (w : Word) : encodeOperand (decodeOperand w) = w := by
  have hw := w.isLt
  apply BitVec.eq_of_toNat_eq
  rcases Nat.lt_or_ge w.toNat 32768 with h | h
  · rw [decodeOperand_of_lt h]
    simp only [encodeOperand, BitVec.toNat_setWidth]
    omega
  · rcases Nat.lt_or_ge w.toNat 32776 with h' | h'
    · rw [decodeOperand_of_register h h']
      simp only [encodeOperand, BitVec.toNat_ofNat]
      omega
    · rw [decodeOperand_of_ge h']
      simp only [encodeOperand, BitVec.toNat_ofNat]
      omega

/-! ## The opcode map -/

theorem opcodeTable_length : opcodeTable.length = 22 := rfl

theorem opcodeRow_eq_none {op : Word} : opcodeRow op = none ↔ 22 ≤ op.toNat := by
  rw [opcodeRow, List.getElem?_eq_none_iff, opcodeTable_length]

theorem opcodeRow_of_lt {op : Word} (h : op.toNat < 22) : ∃ row, opcodeRow op = some row :=
  ⟨_, List.getElem?_eq_getElem (by rwa [opcodeTable_length])⟩

theorem opcodeRow_lt {op : Word} {row : OpRow} (h : opcodeRow op = some row) : op.toNat < 22 := by
  by_contra hn
  rw [opcodeRow_eq_none.2 (by omega)] at h
  cases h

/-- As many operand Words as the format has, or more, make an instruction. -/
theorem build_ok_of_le (sh : Shape) {ws : List Word} (h : sh.operandCount ≤ ws.length) :
    ∃ i, sh.build ws = .ok (i, ws.drop sh.operandCount) := by
  cases sh with
  | f0 i => exact ⟨i, rfl⟩
  | f1 mk =>
    match ws, h with
    | a :: ws, _ => exact ⟨_, rfl⟩
  | f2 mk =>
    match ws, h with
    | a :: b :: ws, _ => exact ⟨_, rfl⟩
  | f3 mk =>
    match ws, h with
    | a :: b :: c :: ws, _ => exact ⟨_, rfl⟩

/-- A format that made an instruction used exactly its operand Words. -/
theorem build_eq_ok {sh : Shape} {ws rest : List Word} {i : Instr} (h : sh.build ws = .ok (i, rest)) :
    sh.operandCount ≤ ws.length ∧ rest = ws.drop sh.operandCount := by
  cases sh with
  | f0 j =>
    simp only [Shape.build, Except.ok.injEq, Prod.mk.injEq] at h
    exact ⟨Nat.zero_le _, h.2.symm⟩
  | f1 mk =>
    match ws, h with
    | [], h => cases h
    | a :: ws, h => cases h; simp [Shape.operandCount]
  | f2 mk =>
    match ws, h with
    | [], h => cases h
    | [_], h => cases h
    | a :: b :: ws, h => cases h; simp [Shape.operandCount]
  | f3 mk =>
    match ws, h with
    | [], h => cases h
    | [_], h => cases h
    | [_, _], h => cases h
    | a :: b :: c :: ws, h => cases h; simp [Shape.operandCount]

/-- The Words past the operands do not matter to what is built. -/
theorem build_append {sh : Shape} {ws rest : List Word} (h : sh.operandCount = ws.length) :
    ∃ i, sh.build ws = .ok (i, []) ∧ sh.build (ws ++ rest) = .ok (i, rest) := by
  cases sh with
  | f0 j =>
    match ws, h with
    | [], _ => exact ⟨j, rfl, rfl⟩
  | f1 mk =>
    match ws, h with
    | [a], _ => exact ⟨_, rfl, rfl⟩
  | f2 mk =>
    match ws, h with
    | [a, b], _ => exact ⟨_, rfl, rfl⟩
  | f3 mk =>
    match ws, h with
    | [a, b, c], _ => exact ⟨_, rfl, rfl⟩

end Sys2Proof
end

