-- ==== Sys2Proof/Laws/Memory.lean ====
section
/-! SUPPORT. The laws of Word Memory: a read after a write, and the canonical form kept by every operation. -/

namespace Sys2Proof.Machine

namespace Memory

variable (fill v : Word) (m : Memory) (a b : Nat)

/-! ## Reading -/

@[simp] theorem read_nil : Memory.read fill [] a = fill := rfl

theorem read_of_not_mem (h : ∀ c ∈ m, c.1 ≠ a) : Memory.read fill m a = fill := by
  induction m with
  | nil => rfl
  | cons c m ih =>
    simp only [List.mem_cons, forall_eq_or_imp] at h
    simp [Memory.read, h.1, ih h.2]

theorem read_erase : Memory.read fill (Memory.erase m a) b = if b = a then fill else Memory.read fill m b := by
  induction m with
  | nil => simp [Memory.erase]
  | cons c m ih =>
    simp only [Memory.erase, List.filter_cons] at ih ⊢
    by_cases hc : c.1 = a <;> by_cases hb : c.1 = b <;> simp_all [Memory.read]

theorem read_insert (h : ∀ c ∈ m, c.1 ≠ a) :
    Memory.read fill (Memory.insert a v m) b = if b = a then v else Memory.read fill m b := by
  induction m with
  | nil => simp [Memory.insert, Memory.read, eq_comm]
  | cons c m ih =>
    simp only [List.mem_cons, forall_eq_or_imp] at h
    simp only [Memory.insert]
    split
    · simp [Memory.read, eq_comm]
    · by_cases hb : c.1 = b
      · have : b ≠ a := hb ▸ h.1
        simp [Memory.read, hb, this]
      · simp [Memory.read, hb, ih h.2]

theorem not_mem_erase : ∀ c ∈ Memory.erase m a, c.1 ≠ a := by simp [Memory.erase]

/-- The law of memory: after a write, the written address reads as the value and every other as before. -/
theorem read_write : Memory.read fill (Memory.write fill m a v) b = if b = a then v else Memory.read fill m b := by
  unfold Memory.write
  split
  · next h => rw [read_erase, h]
  · rw [read_insert _ _ _ _ _ (not_mem_erase m a), read_erase]
    split <;> rfl

/-! ## The canonical form -/

theorem wf_iff : Memory.wf fill m = true ↔
    m.Pairwise (fun c c' => c.1 < c'.1) ∧ ∀ c ∈ m, c.1 < memWords ∧ c.2 ≠ fill := by
  simp [Memory.wf]

theorem mem_insert (c : Cell) : c ∈ Memory.insert a v m ↔ c = (a, v) ∨ c ∈ m := by
  induction m with
  | nil => simp [Memory.insert]
  | cons d m ih =>
    simp only [Memory.insert]
    split
    · simp
    · simp [ih, or_left_comm]

theorem pairwise_insert (h : m.Pairwise fun c c' => c.1 < c'.1) (ha : ∀ c ∈ m, c.1 ≠ a) :
    (Memory.insert a v m).Pairwise fun c c' => c.1 < c'.1 := by
  induction m with
  | nil => simp [Memory.insert]
  | cons d m ih =>
    simp only [List.mem_cons, forall_eq_or_imp] at ha
    have hd := List.pairwise_cons.1 h
    simp only [Memory.insert]
    split
    · next hlt =>
      refine List.pairwise_cons.2 ⟨fun c hc => ?_, h⟩
      rcases List.mem_cons.1 hc with rfl | hc
      · exact hlt
      · exact Nat.lt_trans hlt (hd.1 c hc)
    · next hge =>
      refine List.pairwise_cons.2 ⟨fun c hc => ?_, ih hd.2 ha.2⟩
      rcases (mem_insert _ _ _ c).1 hc with rfl | hc
      · have := ha.1
        simp only at *
        omega
      · exact hd.1 c hc

theorem wf_nil : Memory.wf fill [] = true := by simp [wf_iff]

theorem wf_erase (h : Memory.wf fill m = true) : Memory.wf fill (Memory.erase m a) = true := by
  rw [wf_iff] at h ⊢
  exact ⟨h.1.filter _, fun c hc => h.2 c (List.mem_of_mem_filter hc)⟩

/-- A write inside the memory keeps the canonical form. -/
theorem wf_write (h : Memory.wf fill m = true) (ha : a < memWords) :
    Memory.wf fill (Memory.write fill m a v) = true := by
  unfold Memory.write
  split
  · exact wf_erase _ _ _ h
  · next hv =>
    have he := (wf_iff _ _).1 (wf_erase fill m a h)
    refine (wf_iff _ _).2 ⟨pairwise_insert _ _ _ he.1 (not_mem_erase m a), fun c hc => ?_⟩
    rcases (mem_insert _ _ _ c).1 hc with rfl | hc
    · exact ⟨ha, hv⟩
    · exact he.2 c hc

/-! ## The image -/

theorem mem_ofWords {ws : List Word} {c : Cell} (h : c ∈ Memory.ofWords fill a ws) :
    a ≤ c.1 ∧ c.1 < a + ws.length ∧ c.2 ≠ fill := by
  induction ws generalizing a with
  | nil => simp [Memory.ofWords] at h
  | cons w ws ih =>
    simp only [Memory.ofWords] at h
    split at h
    · have := ih _ h
      simp only [List.length_cons]
      exact ⟨by omega, by omega, this.2.2⟩
    · next hw =>
      rcases List.mem_cons.1 h with rfl | h
      · simp [hw]
      · have := ih _ h
        simp only [List.length_cons]
        exact ⟨by omega, by omega, this.2.2⟩

theorem pairwise_ofWords (ws : List Word) : (Memory.ofWords fill a ws).Pairwise fun c c' => c.1 < c'.1 := by
  induction ws generalizing a with
  | nil => simp [Memory.ofWords]
  | cons w ws ih =>
    simp only [Memory.ofWords]
    split
    · exact ih _
    · exact List.pairwise_cons.2 ⟨fun c hc => (mem_ofWords fill (a + 1) hc).1, ih _⟩

theorem wf_ofWords {ws : List Word} (h : a + ws.length ≤ memWords) :
    Memory.wf fill (Memory.ofWords fill a ws) = true :=
  (wf_iff _ _).2 ⟨pairwise_ofWords fill a ws, fun c hc => by
    have := mem_ofWords fill a hc
    exact ⟨by omega, this.2.2⟩⟩

theorem read_ofWords (ws : List Word) :
    Memory.read fill (Memory.ofWords fill a ws) b = if a ≤ b then ws.getD (b - a) fill else fill := by
  induction ws generalizing a with
  | nil => simp [Memory.ofWords]
  | cons w ws ih =>
    have key : Memory.read fill (Memory.ofWords fill (a + 1) ws) b =
        if a + 1 ≤ b then ws.getD (b - (a + 1)) fill else fill := ih (a + 1)
    simp only [Memory.ofWords]
    rcases Nat.lt_trichotomy a b with hab | rfl | hab
    · have h1 : b - a = b - (a + 1) + 1 := by omega
      have h2 : a ≤ b := by omega
      have h3 : a + 1 ≤ b := hab
      split
      · rw [key, if_pos h3, h1, List.getD_cons_succ]
      · rw [Memory.read, if_neg (by omega), key, if_pos h3, h1, List.getD_cons_succ]
    · split
      · next hw => rw [key, if_neg (by omega)]; simp [hw]
      · simp [Memory.read]
    · have h2 : ¬ a ≤ b := by omega
      have h3 : ¬ a + 1 ≤ b := by omega
      split
      · rw [key, if_neg h3]
      · rw [Memory.read, if_neg (by omega), key, if_neg h3]

end Memory

end Sys2Proof.Machine
end

