-- ==== Sys2Proof/Laws/State.lean ====
section
/-! SUPPORT. What each update of the state does to each field, one lemma each, true by rfl. -/

namespace Sys2Proof.Machine

variable (s : State)

/-! ## writeReg -/

@[simp] theorem State.writeReg_regs (i : RegIndex) (v : Word) : (s.writeReg i v).regs = s.regs.set i v := rfl
@[simp] theorem State.writeReg_pc (i : RegIndex) (v : Word) : (s.writeReg i v).pc = s.pc := rfl
@[simp] theorem State.writeReg_stack (i : RegIndex) (v : Word) : (s.writeReg i v).stack = s.stack := rfl
@[simp] theorem State.writeReg_mem (i : RegIndex) (v : Word) : (s.writeReg i v).mem = s.mem := rfl
@[simp] theorem State.writeReg_run (i : RegIndex) (v : Word) : (s.writeReg i v).run = s.run := rfl
@[simp] theorem State.writeReg_faultKind (i : RegIndex) (v : Word) : (s.writeReg i v).faultKind = s.faultKind := rfl
@[simp] theorem State.writeReg_faultPc (i : RegIndex) (v : Word) : (s.writeReg i v).faultPc = s.faultPc := rfl
@[simp] theorem State.writeReg_output (i : RegIndex) (v : Word) : (s.writeReg i v).output = s.output := rfl
@[simp] theorem State.writeReg_input (i : RegIndex) (v : Word) : (s.writeReg i v).input = s.input := rfl
@[simp] theorem State.writeReg_cfg (i : RegIndex) (v : Word) : (s.writeReg i v).cfg = s.cfg := rfl

/-! ## jumpTo -/

@[simp] theorem State.jumpTo_regs (t : Word) : (s.jumpTo t).regs = s.regs := rfl
@[simp] theorem State.jumpTo_pc (t : Word) : (s.jumpTo t).pc = t := rfl
@[simp] theorem State.jumpTo_stack (t : Word) : (s.jumpTo t).stack = s.stack := rfl
@[simp] theorem State.jumpTo_mem (t : Word) : (s.jumpTo t).mem = s.mem := rfl
@[simp] theorem State.jumpTo_run (t : Word) : (s.jumpTo t).run = s.run := rfl
@[simp] theorem State.jumpTo_faultKind (t : Word) : (s.jumpTo t).faultKind = s.faultKind := rfl
@[simp] theorem State.jumpTo_faultPc (t : Word) : (s.jumpTo t).faultPc = s.faultPc := rfl
@[simp] theorem State.jumpTo_output (t : Word) : (s.jumpTo t).output = s.output := rfl
@[simp] theorem State.jumpTo_input (t : Word) : (s.jumpTo t).input = s.input := rfl
@[simp] theorem State.jumpTo_cfg (t : Word) : (s.jumpTo t).cfg = s.cfg := rfl

/-! ## advance -/

@[simp] theorem State.advance_regs (n : Nat) : (s.advance n).regs = s.regs := rfl
@[simp] theorem State.advance_pc (n : Nat) : (s.advance n).pc = s.pc + BitVec.ofNat 16 n := rfl
@[simp] theorem State.advance_stack (n : Nat) : (s.advance n).stack = s.stack := rfl
@[simp] theorem State.advance_mem (n : Nat) : (s.advance n).mem = s.mem := rfl
@[simp] theorem State.advance_run (n : Nat) : (s.advance n).run = s.run := rfl
@[simp] theorem State.advance_faultKind (n : Nat) : (s.advance n).faultKind = s.faultKind := rfl
@[simp] theorem State.advance_faultPc (n : Nat) : (s.advance n).faultPc = s.faultPc := rfl
@[simp] theorem State.advance_output (n : Nat) : (s.advance n).output = s.output := rfl
@[simp] theorem State.advance_input (n : Nat) : (s.advance n).input = s.input := rfl
@[simp] theorem State.advance_cfg (n : Nat) : (s.advance n).cfg = s.cfg := rfl

/-! ## setCell -/

@[simp] theorem State.setCell_regs (a : Nat) (v : Word) : (s.setCell a v).regs = s.regs := rfl
@[simp] theorem State.setCell_pc (a : Nat) (v : Word) : (s.setCell a v).pc = s.pc := rfl
@[simp] theorem State.setCell_stack (a : Nat) (v : Word) : (s.setCell a v).stack = s.stack := rfl
@[simp] theorem State.setCell_mem (a : Nat) (v : Word) : (s.setCell a v).mem = s.mem.write s.cfg.memFill a v := rfl
@[simp] theorem State.setCell_run (a : Nat) (v : Word) : (s.setCell a v).run = s.run := rfl
@[simp] theorem State.setCell_faultKind (a : Nat) (v : Word) : (s.setCell a v).faultKind = s.faultKind := rfl
@[simp] theorem State.setCell_faultPc (a : Nat) (v : Word) : (s.setCell a v).faultPc = s.faultPc := rfl
@[simp] theorem State.setCell_output (a : Nat) (v : Word) : (s.setCell a v).output = s.output := rfl
@[simp] theorem State.setCell_input (a : Nat) (v : Word) : (s.setCell a v).input = s.input := rfl
@[simp] theorem State.setCell_cfg (a : Nat) (v : Word) : (s.setCell a v).cfg = s.cfg := rfl

/-! ## withStack -/

@[simp] theorem State.withStack_regs (st : List Word) : (s.withStack st).regs = s.regs := rfl
@[simp] theorem State.withStack_pc (st : List Word) : (s.withStack st).pc = s.pc := rfl
@[simp] theorem State.withStack_stack (st : List Word) : (s.withStack st).stack = st := rfl
@[simp] theorem State.withStack_mem (st : List Word) : (s.withStack st).mem = s.mem := rfl
@[simp] theorem State.withStack_run (st : List Word) : (s.withStack st).run = s.run := rfl
@[simp] theorem State.withStack_faultKind (st : List Word) : (s.withStack st).faultKind = s.faultKind := rfl
@[simp] theorem State.withStack_faultPc (st : List Word) : (s.withStack st).faultPc = s.faultPc := rfl
@[simp] theorem State.withStack_output (st : List Word) : (s.withStack st).output = s.output := rfl
@[simp] theorem State.withStack_input (st : List Word) : (s.withStack st).input = s.input := rfl
@[simp] theorem State.withStack_cfg (st : List Word) : (s.withStack st).cfg = s.cfg := rfl

/-! ## withInput -/

@[simp] theorem State.withInput_regs (i : InputSeq) : (s.withInput i).regs = s.regs := rfl
@[simp] theorem State.withInput_pc (i : InputSeq) : (s.withInput i).pc = s.pc := rfl
@[simp] theorem State.withInput_stack (i : InputSeq) : (s.withInput i).stack = s.stack := rfl
@[simp] theorem State.withInput_mem (i : InputSeq) : (s.withInput i).mem = s.mem := rfl
@[simp] theorem State.withInput_run (i : InputSeq) : (s.withInput i).run = s.run := rfl
@[simp] theorem State.withInput_faultKind (i : InputSeq) : (s.withInput i).faultKind = s.faultKind := rfl
@[simp] theorem State.withInput_faultPc (i : InputSeq) : (s.withInput i).faultPc = s.faultPc := rfl
@[simp] theorem State.withInput_output (i : InputSeq) : (s.withInput i).output = s.output := rfl
@[simp] theorem State.withInput_input (i : InputSeq) : (s.withInput i).input = i := rfl
@[simp] theorem State.withInput_cfg (i : InputSeq) : (s.withInput i).cfg = s.cfg := rfl

/-! ## outChar -/

@[simp] theorem State.outChar_regs (v : Word) : (s.outChar v).regs = s.regs := rfl
@[simp] theorem State.outChar_pc (v : Word) : (s.outChar v).pc = s.pc := rfl
@[simp] theorem State.outChar_stack (v : Word) : (s.outChar v).stack = s.stack := rfl
@[simp] theorem State.outChar_mem (v : Word) : (s.outChar v).mem = s.mem := rfl
@[simp] theorem State.outChar_run (v : Word) : (s.outChar v).run = s.run := rfl
@[simp] theorem State.outChar_faultKind (v : Word) : (s.outChar v).faultKind = s.faultKind := rfl
@[simp] theorem State.outChar_faultPc (v : Word) : (s.outChar v).faultPc = s.faultPc := rfl
@[simp] theorem State.outChar_output (v : Word) : (s.outChar v).output = s.output ++ [v.setWidth 8] := rfl
@[simp] theorem State.outChar_input (v : Word) : (s.outChar v).input = s.input := rfl
@[simp] theorem State.outChar_cfg (v : Word) : (s.outChar v).cfg = s.cfg := rfl

/-! ## deliver -/

@[simp] theorem State.deliver_regs (ch : Byte) : (s.deliver ch).regs = s.regs := rfl
@[simp] theorem State.deliver_pc (ch : Byte) : (s.deliver ch).pc = s.pc := rfl
@[simp] theorem State.deliver_stack (ch : Byte) : (s.deliver ch).stack = s.stack := rfl
@[simp] theorem State.deliver_mem (ch : Byte) : (s.deliver ch).mem = s.mem := rfl
@[simp] theorem State.deliver_run (ch : Byte) : (s.deliver ch).run = s.run := rfl
@[simp] theorem State.deliver_faultKind (ch : Byte) : (s.deliver ch).faultKind = s.faultKind := rfl
@[simp] theorem State.deliver_faultPc (ch : Byte) : (s.deliver ch).faultPc = s.faultPc := rfl
@[simp] theorem State.deliver_output (ch : Byte) : (s.deliver ch).output = s.output := rfl
@[simp] theorem State.deliver_input (ch : Byte) : (s.deliver ch).input = s.input.append ch := rfl
@[simp] theorem State.deliver_cfg (ch : Byte) : (s.deliver ch).cfg = s.cfg := rfl

/-! ## raise -/

@[simp] theorem State.raise_regs (k : FaultKind) : (s.raise k).regs = s.regs := rfl
@[simp] theorem State.raise_pc (k : FaultKind) : (s.raise k).pc = s.pc := rfl
@[simp] theorem State.raise_stack (k : FaultKind) : (s.raise k).stack = s.stack := rfl
@[simp] theorem State.raise_mem (k : FaultKind) : (s.raise k).mem = s.mem := rfl
@[simp] theorem State.raise_run (k : FaultKind) : (s.raise k).run = .faulted := rfl
@[simp] theorem State.raise_faultKind (k : FaultKind) : (s.raise k).faultKind = some k := rfl
@[simp] theorem State.raise_faultPc (k : FaultKind) : (s.raise k).faultPc = s.pc := rfl
@[simp] theorem State.raise_output (k : FaultKind) : (s.raise k).output = s.output := rfl
@[simp] theorem State.raise_input (k : FaultKind) : (s.raise k).input = s.input := rfl
@[simp] theorem State.raise_cfg (k : FaultKind) : (s.raise k).cfg = s.cfg := rfl

/-! ## haltNow -/

@[simp] theorem State.haltNow_regs : (s.haltNow).regs = s.regs := rfl
@[simp] theorem State.haltNow_pc : (s.haltNow).pc = s.pc := rfl
@[simp] theorem State.haltNow_stack : (s.haltNow).stack = s.stack := rfl
@[simp] theorem State.haltNow_mem : (s.haltNow).mem = s.mem := rfl
@[simp] theorem State.haltNow_run : (s.haltNow).run = .halted := rfl
@[simp] theorem State.haltNow_faultKind : (s.haltNow).faultKind = s.faultKind := rfl
@[simp] theorem State.haltNow_faultPc : (s.haltNow).faultPc = s.faultPc := rfl
@[simp] theorem State.haltNow_output : (s.haltNow).output = s.output := rfl
@[simp] theorem State.haltNow_input : (s.haltNow).input = s.input := rfl
@[simp] theorem State.haltNow_cfg : (s.haltNow).cfg = s.cfg := rfl

/-! ## Reads through the accessors -/

theorem State.readReg_writeReg (i j : RegIndex) (v : Word) :
    (s.writeReg i v).readReg j = if j = i then v else s.readReg j := by
  by_cases h : j = i
  · subst h; simp [State.readReg, State.writeReg]
  · have h' : (i : Nat) ≠ j := fun e => h (Fin.ext e.symm)
    simp [State.readReg, State.writeReg, h, Vector.getElem_set_ne _ _ h']

@[simp] theorem State.readReg_writeReg_self (i : RegIndex) (v : Word) : (s.writeReg i v).readReg i = v := by
  simp [State.readReg_writeReg]

theorem State.readReg_writeReg_of_ne {i j : RegIndex} (h : j ≠ i) (v : Word) :
    (s.writeReg i v).readReg j = s.readReg j := by
  simp [State.readReg_writeReg, h]

/-- A cell after a write: the written one holds the value, every other is as before. -/
theorem State.setCell_cell (a : Nat) (v : Word) (b : Nat) :
    (s.setCell a v).cell b = if b = a then v else s.cell b :=
  Memory.read_write _ _ _ _ _

@[simp] theorem State.setCell_cell_self (a : Nat) (v : Word) : (s.setCell a v).cell a = v := by
  simp [State.setCell_cell]

@[simp] theorem State.writeReg_cell (i : RegIndex) (v : Word) (x : Nat) : (s.writeReg i v).cell x = s.cell x := rfl
@[simp] theorem State.jumpTo_readReg (t : Word) (r : RegIndex) : (s.jumpTo t).readReg r = s.readReg r := rfl
@[simp] theorem State.jumpTo_cell (t : Word) (x : Nat) : (s.jumpTo t).cell x = s.cell x := rfl
@[simp] theorem State.advance_readReg (n : Nat) (r : RegIndex) : (s.advance n).readReg r = s.readReg r := rfl
@[simp] theorem State.advance_cell (n : Nat) (x : Nat) : (s.advance n).cell x = s.cell x := rfl
@[simp] theorem State.setCell_readReg (a : Nat) (v : Word) (r : RegIndex) : (s.setCell a v).readReg r = s.readReg r := rfl
@[simp] theorem State.withStack_readReg (st : List Word) (r : RegIndex) : (s.withStack st).readReg r = s.readReg r := rfl
@[simp] theorem State.withStack_cell (st : List Word) (x : Nat) : (s.withStack st).cell x = s.cell x := rfl
@[simp] theorem State.withInput_readReg (i : InputSeq) (r : RegIndex) : (s.withInput i).readReg r = s.readReg r := rfl
@[simp] theorem State.withInput_cell (i : InputSeq) (x : Nat) : (s.withInput i).cell x = s.cell x := rfl
@[simp] theorem State.outChar_readReg (v : Word) (r : RegIndex) : (s.outChar v).readReg r = s.readReg r := rfl
@[simp] theorem State.outChar_cell (v : Word) (x : Nat) : (s.outChar v).cell x = s.cell x := rfl
@[simp] theorem State.deliver_readReg (ch : Byte) (r : RegIndex) : (s.deliver ch).readReg r = s.readReg r := rfl
@[simp] theorem State.deliver_cell (ch : Byte) (x : Nat) : (s.deliver ch).cell x = s.cell x := rfl
@[simp] theorem State.raise_readReg (k : FaultKind) (r : RegIndex) : (s.raise k).readReg r = s.readReg r := rfl
@[simp] theorem State.raise_cell (k : FaultKind) (x : Nat) : (s.raise k).cell x = s.cell x := rfl
@[simp] theorem State.haltNow_readReg (r : RegIndex) : (s.haltNow).readReg r = s.readReg r := rfl
@[simp] theorem State.haltNow_cell (x : Nat) : (s.haltNow).cell x = s.cell x := rfl

end Sys2Proof.Machine
end

