-- ==== Sys2Proof/Laws/Ops.lean ====
section
/-! SUPPORT. What each shared operation can do, said once. -/

namespace Sys2Proof.Machine

variable {s t : State}

/-! ## Computations that can raise a fault -/

theorem bind_eq_ok {α β : Type} {x : Except FaultKind α} {f : α → Except FaultKind β} {b : β} :
    (x >>= f) = .ok b ↔ ∃ a, x = .ok a ∧ f a = .ok b := by
  cases x <;> simp [bind, Except.bind]

theorem bind_eq_error {α β : Type} {x : Except FaultKind α} {f : α → Except FaultKind β} {k : FaultKind} :
    (x >>= f) = .error k ↔ x = .error k ∨ ∃ a, x = .ok a ∧ f a = .error k := by
  cases x <;> simp [bind, Except.bind]

@[simp] theorem ok_bind {α β : Type} (a : α) (f : α → Except FaultKind β) : (Except.ok a >>= f) = f a := rfl

@[simp] theorem error_bind {α β : Type} (k : FaultKind) (f : α → Except FaultKind β) :
    (Except.error k >>= f) = .error k := rfl

@[simp] theorem pure_eq_ok {α : Type} (a : α) : (pure a : Except FaultKind α) = .ok a := rfl

@[simp] theorem commit_ok (s t : State) : s.commit (.ok t) = .next t := rfl

@[simp] theorem commit_error (s : State) (k : FaultKind) : s.commit (.error k) = .next (s.raise k) := rfl

/-! ## Word Memory -/

theorem cell_eq (s : State) (a : Nat) : s.cell a = s.mem.read s.cfg.memFill a := rfl

theorem memRead_of_lt {a : Word} (h : a.toNat < 32768) : s.memRead a = .ok (s.cell a.toNat) := by
  simp [State.memRead, memWords, h]

theorem memRead_of_ge {a : Word} (h : 32768 ≤ a.toNat) : s.memRead a = .error .outOfRangeAddress := by
  simp [State.memRead, memWords, Nat.not_lt.2 h]

theorem memRead_eq_ok {a w : Word} : s.memRead a = .ok w ↔ a.toNat < 32768 ∧ s.cell a.toNat = w := by
  rcases Nat.lt_or_ge a.toNat 32768 with h | h
  · simp [memRead_of_lt h, h]
  · simp [memRead_of_ge h, Nat.not_lt.2 h]

theorem memRead_eq_error {a : Word} {k : FaultKind} :
    s.memRead a = .error k ↔ 32768 ≤ a.toNat ∧ k = .outOfRangeAddress := by
  rcases Nat.lt_or_ge a.toNat 32768 with h | h
  · simp [memRead_of_lt h, Nat.not_le.2 h]
  · simp [memRead_of_ge h, h, eq_comm]

/-- The state after a write inside the memory. -/
theorem memWrite_of_lt {a v : Word} (h : a.toNat < 32768) :
    s.memWrite a v = .ok (s.setCell a.toNat v) := by
  simp [State.memWrite, memWords, h]

theorem memWrite_of_ge {a v : Word} (h : 32768 ≤ a.toNat) : s.memWrite a v = .error .outOfRangeAddress := by
  simp [State.memWrite, memWords, Nat.not_lt.2 h]

theorem memWrite_eq_ok {a v : Word} : s.memWrite a v = .ok t ↔
    a.toNat < 32768 ∧ t = s.setCell a.toNat v := by
  rcases Nat.lt_or_ge a.toNat 32768 with h | h
  · simp [memWrite_of_lt h, h, eq_comm]
  · simp [memWrite_of_ge h, Nat.not_lt.2 h]

theorem memWrite_eq_error {a v : Word} {k : FaultKind} :
    s.memWrite a v = .error k ↔ 32768 ≤ a.toNat ∧ k = .outOfRangeAddress := by
  rcases Nat.lt_or_ge a.toNat 32768 with h | h
  · simp [memWrite_of_lt h, Nat.not_le.2 h]
  · simp [memWrite_of_ge h, h, eq_comm]

/-! ## The Value Stack -/

theorem stackFull_eq_true : s.stackFull = true ↔ ∃ d, s.cfg.stackDepth = some d ∧ d ≤ s.stack.length := by
  unfold State.stackFull
  cases s.cfg.stackDepth <;> simp

theorem stackFull_eq_false : s.stackFull = false ↔ ∀ d, s.cfg.stackDepth = some d → s.stack.length < d := by
  unfold State.stackFull
  cases s.cfg.stackDepth <;> simp

theorem pushValue_eq_ok {v : Word} :
    s.pushValue v = .ok t ↔ s.stackFull = false ∧ t = s.withStack (s.stack ++ [v]) := by
  unfold State.pushValue
  cases s.stackFull <;> simp [eq_comm]

theorem pushValue_eq_error {v : Word} {k : FaultKind} :
    s.pushValue v = .error k ↔ s.stackFull = true ∧ k = .stackOverflow := by
  unfold State.pushValue
  cases s.stackFull <;> simp [eq_comm]

theorem popValue_eq_none : s.popValue = none ↔ s.stack = [] := by
  unfold State.popValue
  rcases h : s.stack.getLast? with _ | v
  · simpa using h
  · have : s.stack ≠ [] := by rintro e; simp [e] at h
    simp [this]

theorem popValue_eq_some {v : Word} :
    s.popValue = some (v, t) ↔ ∃ st, s.stack = st ++ [v] ∧ t = s.withStack st := by
  unfold State.popValue
  rcases List.eq_nil_or_concat s.stack with h | ⟨st, w, h⟩
  · simp [h]
  · simp only [h, List.concat_eq_append, List.getLast?_append, List.getLast?_singleton, Option.some_or,
      List.dropLast_concat, Option.some.injEq, Prod.mk.injEq]
    constructor
    · rintro ⟨rfl, rfl⟩
      exact ⟨st, rfl, rfl⟩
    · rintro ⟨st', e, rfl⟩
      obtain ⟨rfl, e'⟩ := List.append_inj' e rfl
      simp only [List.cons.injEq, and_true] at e'
      exact ⟨e', rfl⟩

theorem popValue_of_append {st : List Word} {v : Word} (h : s.stack = st ++ [v]) :
    s.popValue = some (v, s.withStack st) := popValue_eq_some.2 ⟨st, h, rfl⟩

/-! ## The I/O Device -/

@[simp] theorem char?_finite (chars : List Byte) (n : Nat) : (InputSeq.finite chars).char? n = chars[n]? := rfl

@[simp] theorem take_finite_nil : (InputSeq.finite []).take = none := rfl

@[simp] theorem take_finite_cons (ch : Byte) (chars : List Byte) :
    (InputSeq.finite (ch :: chars)).take = some (ch, .finite chars) := rfl

@[simp] theorem append_finite (chars : List Byte) (ch : Byte) :
    (InputSeq.finite chars).append ch = .finite (chars ++ [ch]) := rfl

@[simp] theorem append_infinite (opening : List Byte) (source position : Nat) (ch : Byte) :
    (InputSeq.infinite opening source position).append ch = .infinite opening source position := rfl

/-- Only a finite `INPUT` runs out. -/
theorem take_eq_none {i : InputSeq} : i.take = none ↔ i = .finite [] := by
  rcases i with (_ | ⟨ch, chars⟩) | ⟨_ | ⟨ch, opening⟩, source, position⟩ <;> simp [InputSeq.take]

/-- Taking a character gives the next one and leaves those after it, in order (46_system_io.md R156). -/
theorem take_spec {i rest : InputSeq} {ch : Byte} (h : i.take = some (ch, rest)) :
    i.char? 0 = some ch ∧ ∀ n, rest.char? n = i.char? (n + 1) := by
  rcases i with (_ | ⟨c, chars⟩) | ⟨_ | ⟨c, opening⟩, source, position⟩ <;> cases h
  · exact ⟨rfl, fun n => rfl⟩
  · refine ⟨rfl, fun n => ?_⟩
    simp [InputSeq.char?, Nat.add_assoc, Nat.add_comm 1 n]
  · refine ⟨rfl, fun n => ?_⟩
    simp [InputSeq.char?]

/-- There is a character to take exactly if there is a next one. -/
theorem take_eq_none_iff_char? {i : InputSeq} : i.take = none ↔ i.char? 0 = none := by
  rcases i with (_ | ⟨ch, chars⟩) | ⟨_ | ⟨ch, opening⟩, source, position⟩ <;> simp [InputSeq.take, InputSeq.char?]

theorem take_of_char? {i : InputSeq} {ch : Byte} (h : i.char? 0 = some ch) : ∃ rest, i.take = some (ch, rest) := by
  rcases ht : i.take with _ | ⟨c, rest⟩
  · simp [take_eq_none_iff_char?.1 ht] at h
  · have := (take_spec ht).1.symm.trans h
    exact ⟨rest, by simpa using this⟩

theorem inChar_eq_none : s.inChar = none ↔ s.input = .finite [] := by
  rw [← take_eq_none]
  unfold State.inChar
  split <;> simp_all

theorem inChar_eq_some {ch : Byte} :
    s.inChar = some (ch, t) ↔ ∃ rest, s.input.take = some (ch, rest) ∧ t = s.withInput rest := by
  unfold State.inChar
  rcases s.input.take with _ | ⟨c, rest⟩
  · simp
  · constructor
    · rintro ⟨⟩
      exact ⟨rest, rfl, rfl⟩
    · rintro ⟨_, ⟨⟩, rfl⟩
      rfl

theorem inChar_of_take {ch : Byte} {rest : InputSeq} (h : s.input.take = some (ch, rest)) :
    s.inChar = some (ch, s.withInput rest) := inChar_eq_some.2 ⟨rest, h, rfl⟩

/-! ## Values -/

theorem mask15_toNat (v : Word) : (mask15 v).toNat = v.toNat % 32768 := by
  have : (32767 : Nat) = 2 ^ 15 - 1 := rfl
  rw [mask15, BitVec.toNat_and, BitVec.toNat_ofNat, Nat.mod_eq_of_lt (by decide), this,
    Nat.and_two_pow_sub_one_eq_mod]

theorem mask15_le (v : Word) : (mask15 v).toNat ≤ 32767 := by
  rw [mask15_toNat]
  omega

theorem truthWord_le (b : Bool) : (truthWord b).toNat ≤ 32767 := by cases b <;> decide

theorem addResult_le (v w : Word) : (addResult v w).toNat ≤ 32767 := by
  rw [addResult, BitVec.toNat_ofNat]
  omega

theorem multResult_le (v w : Word) : (multResult v w).toNat ≤ 32767 := by
  rw [multResult, BitVec.toNat_ofNat]
  omega

theorem modResult_eq_ok {v w r : Word} : modResult v w = .ok r ↔
    w.toNat ≠ 0 ∧ r = mask15 (BitVec.ofNat 16 (v.toNat % w.toNat)) := by
  unfold modResult
  split <;> simp_all [eq_comm]

theorem modResult_eq_error {v w : Word} {k : FaultKind} :
    modResult v w = .error k ↔ w.toNat = 0 ∧ k = .modByZero := by
  unfold modResult
  split <;> simp_all [eq_comm]

end Sys2Proof.Machine
end

