-- ==== Sys2Proof/Laws/Operands.lean ====
section
/-! SUPPORT. What the Operand Resolver and the instruction shapes can do, said once. -/

namespace Sys2Proof.Machine

variable {s t : State}

@[simp] theorem resolve_literal (v : BitVec 15) : s.resolve (.literal v) = .ok (v.setWidth 16) := rfl
@[simp] theorem resolve_register (r : RegIndex) : s.resolve (.register r) = .ok (s.readReg r) := rfl
@[simp] theorem resolve_invalid (k : Fin 32760) : s.resolve (.invalid k) = .error .invalidOperand := rfl
@[simp] theorem destReg_literal (v : BitVec 15) : destReg (.literal v) = .error .invalidDestination := rfl
@[simp] theorem destReg_register (r : RegIndex) : destReg (.register r) = .ok r := rfl
@[simp] theorem destReg_invalid (k : Fin 32760) : destReg (.invalid k) = .error .invalidOperand := rfl

theorem destReg_eq_ok {a : Operand} {d : RegIndex} : destReg a = .ok d ↔ a = .register d := by
  cases a <;> simp

theorem destReg_eq_error {a : Operand} {k : FaultKind} :
    destReg a = .error k ↔ operandFault (.dest, a) = some k := by
  cases a <;> simp [operandFault]

theorem resolve_eq_error {a : Operand} {k : FaultKind} :
    s.resolve a = .error k ↔ operandFault (.source, a) = some k := by
  cases a <;> simp [operandFault]

theorem operandFault_of_resolve {a : Operand} {v : Word} (h : s.resolve a = .ok v) :
    operandFault (.source, a) = none := by
  cases a <;> simp_all [operandFault]

theorem operandFault_of_destReg {a : Operand} {d : RegIndex} (h : destReg a = .ok d) :
    operandFault (.dest, a) = none := by
  cases a <;> simp_all [operandFault]

/-- An instruction is well formed exactly when no operand raises a fault. -/
theorem wellFormed_iff (i : Instr) : i.wellFormed = true ↔ firstOperandFault i = none := by
  simp only [Instr.wellFormed, firstOperandFault, List.all_eq_true, List.findSome?_eq_none_iff]
  refine forall₂_congr fun ro _ => ?_
  obtain ⟨r, o⟩ := ro
  cases r <;> cases o <;> simp [Operand.fits, operandFault]

/-! ## The shapes -/

theorem writeOf2_eq_ok {f : Word → Word → Except FaultKind Word} {a b c : Operand} :
    s.writeOf2 f a b c = .ok t ↔ ∃ d vb vc v, a = .register d ∧ s.resolve b = .ok vb ∧
      s.resolve c = .ok vc ∧ f vb vc = .ok v ∧ t = (s.writeReg d v).advance 4 := by
  simp only [State.writeOf2, bind_eq_ok, destReg_eq_ok, pure_eq_ok, Except.ok.injEq]
  constructor
  · rintro ⟨d, rfl, vb, hb, vc, hc, v, hv, rfl⟩
    exact ⟨d, vb, vc, v, rfl, hb, hc, hv, rfl⟩
  · rintro ⟨d, vb, vc, v, rfl, hb, hc, hv, rfl⟩
    exact ⟨d, rfl, vb, hb, vc, hc, v, hv, rfl⟩

theorem writeOf2_eq_error {f : Word → Word → Except FaultKind Word} {a b c : Operand} {k : FaultKind} :
    s.writeOf2 f a b c = .error k →
      ([(Role.dest, a), (.source, b), (.source, c)].findSome? operandFault = some k) ∨
      ([(Role.dest, a), (.source, b), (.source, c)].findSome? operandFault = none ∧
        ∃ vb vc, s.resolve b = .ok vb ∧ s.resolve c = .ok vc ∧ f vb vc = .error k) := by
  cases a <;> cases b <;> cases c <;> simp [State.writeOf2, operandFault, List.findSome?, bind_eq_error]

theorem writeOf1_eq_ok {f : Word → Except FaultKind Word} {a b : Operand} :
    s.writeOf1 f a b = .ok t ↔ ∃ d vb v, a = .register d ∧ s.resolve b = .ok vb ∧ f vb = .ok v ∧
      t = (s.writeReg d v).advance 3 := by
  simp only [State.writeOf1, bind_eq_ok, destReg_eq_ok, pure_eq_ok, Except.ok.injEq]
  constructor
  · rintro ⟨d, rfl, vb, hb, v, hv, rfl⟩
    exact ⟨d, vb, v, rfl, hb, hv, rfl⟩
  · rintro ⟨d, vb, v, rfl, hb, hv, rfl⟩
    exact ⟨d, rfl, vb, hb, v, hv, rfl⟩

theorem writeOf1_eq_error {f : Word → Except FaultKind Word} {a b : Operand} {k : FaultKind} :
    s.writeOf1 f a b = .error k →
      ([(Role.dest, a), (.source, b)].findSome? operandFault = some k) ∨
      ([(Role.dest, a), (.source, b)].findSome? operandFault = none ∧
        ∃ vb, s.resolve b = .ok vb ∧ f vb = .error k) := by
  cases a <;> cases b <;> simp [State.writeOf1, operandFault, List.findSome?, bind_eq_error]

theorem jumpIf_eq_ok {taken : Word → Bool} {a b : Operand} :
    s.jumpIf taken a b = .ok t ↔ ∃ va vb, s.resolve a = .ok va ∧ s.resolve b = .ok vb ∧
      t = if taken va then s.jumpTo vb else s.advance 3 := by
  simp only [State.jumpIf, bind_eq_ok, pure_eq_ok, Except.ok.injEq, eq_comm (b := t)]
  constructor
  · rintro ⟨va, ha, vb, hb, rfl⟩
    exact ⟨va, vb, ha, hb, rfl⟩
  · rintro ⟨va, vb, ha, hb, rfl⟩
    exact ⟨va, ha, vb, hb, rfl⟩

theorem jumpIf_eq_error {taken : Word → Bool} {a b : Operand} {k : FaultKind} :
    s.jumpIf taken a b = .error k → [(Role.source, a), (.source, b)].findSome? operandFault = some k := by
  cases a <;> cases b <;> simp [State.jumpIf, operandFault, List.findSome?]

end Sys2Proof.Machine
end

