-- ==== Sys2Proof/Laws/Exec.lean ====
section
/-! SUPPORT. What an executed instruction can do, said once: `exec_effect`. Claims over all instructions go by
cases on `Effect`, not by unfolding `exec`. -/

namespace Sys2Proof.Machine

/-- A value that an instruction with one destination and no other effect can write: a masked or computed value
of at most 32767, or a copy of an operand's value or of a memory cell (10_state.md R22). -/
inductive Written (s : State) : Word → Prop
  | computed (v : Word) (h : v.toNat ≤ 32767) : Written s v
  | register (r : RegIndex) : Written s (s.readReg r)
  | cell (a : Nat) : Written s (s.cell a)

/-- The ways an executed instruction changes the state. -/
inductive Effect (s : State) : Instr → State → Prop
  /-- fault entry: the first bad operand's fault, or an execution fault of the instruction -/
  | raised (i : Instr) (k : FaultKind)
      (h : firstOperandFault i = some k ∨ firstOperandFault i = none ∧ k ∈ executionFaults i) :
      Effect s i (s.raise k)
  | halted : Effect s .halt s.haltNow
  | retHalted (h : s.stack = []) : Effect s .ret s.haltNow
  | returned (st : List Word) (v : Word) (h : s.stack = st ++ [v]) :
      Effect s .ret ((s.withStack st).jumpTo v)
  /-- the ten instructions that write a register and do nothing else -/
  | wrote (i : Instr) (d : RegIndex) (v : Word) (hd : (Role.dest, Operand.register d) ∈ i.operands)
      (hi : ∀ a, i ≠ .pop a ∧ i ≠ .inp a) (hv : Written s v) : Effect s i ((s.writeReg d v).advance i.length)
  | pushed (a : Operand) (va : Word) (ha : s.resolve a = .ok va) (hr : s.stackFull = false) :
      Effect s (.push a) ((s.withStack (s.stack ++ [va])).advance 2)
  | popped (d : RegIndex) (st : List Word) (v : Word) (h : s.stack = st ++ [v]) :
      Effect s (.pop (.register d)) (((s.withStack st).writeReg d v).advance 2)
  | jumped (i : Instr) (hi : (∃ a, i = .jmp a) ∨ (∃ a b, i = .jt a b) ∨ ∃ a b, i = .jf a b) (v : Word) :
      Effect s i (s.jumpTo v)
  | fellThrough (i : Instr) (hi : (∃ a b, i = .jt a b) ∨ (∃ a b, i = .jf a b) ∨ i = .noop) :
      Effect s i (s.advance i.length)
  | called (a : Operand) (va : Word) (ha : s.resolve a = .ok va) (hr : s.stackFull = false) :
      Effect s (.call a) ((s.withStack (s.stack ++ [s.pc + 2#16])).jumpTo va)
  | stored (a b : Operand) (va vb : Word) (ha : s.resolve a = .ok va) (hb : s.resolve b = .ok vb)
      (hva : va.toNat < 32768) :
      Effect s (.wmem a b) ((s.setCell va.toNat vb).advance 3)
  | wroteChar (a : Operand) (va : Word) (ha : s.resolve a = .ok va) :
      Effect s (.out a) ((s.outChar va).advance 2)
  | waited (d : RegIndex) (h : s.input = .finite []) : Effect s (.inp (.register d)) s
  | tookChar (d : RegIndex) (ch : Byte) (rest : InputSeq) (h : s.input.take = some (ch, rest)) :
      Effect s (.inp (.register d)) (((s.withInput rest).writeReg d (ch.setWidth 16)).advance 2)

variable {s : State}

theorem written_resolve {a : Operand} {v : Word} (h : s.resolve a = .ok v) : Written s v := by
  cases a with
  | literal u =>
    simp only [resolve_literal, Except.ok.injEq] at h
    subst h
    exact .computed _ (by rw [BitVec.toNat_setWidth]; omega)
  | register r =>
    simp only [resolve_register, Except.ok.injEq] at h
    exact h ▸ .register r
  | invalid k => simp at h

theorem effect_writeOf2 {f : Word → Word → Except FaultKind Word} {a b c : Operand} (i : Instr)
    (hi : i.operands = [(.dest, a), (.source, b), (.source, c)])
    (hok : ∀ vb vc v, f vb vc = .ok v → v.toNat ≤ 32767)
    (herr : ∀ vb vc k, f vb vc = .error k → k ∈ executionFaults i) :
    ∃ t, s.commit (s.writeOf2 f a b c) = .next t ∧ Effect s i t := by
  rcases h : s.writeOf2 f a b c with k | t
  · refine ⟨_, rfl, .raised i k ?_⟩
    rw [firstOperandFault, hi]
    rcases writeOf2_eq_error h with h | ⟨h, vb, vc, -, -, hf⟩
    · exact .inl h
    · exact .inr ⟨h, herr _ _ _ hf⟩
  · obtain ⟨d, vb, vc, v, rfl, -, -, hf, rfl⟩ := writeOf2_eq_ok.1 h
    refine ⟨_, rfl, ?_⟩
    have := Effect.wrote (s := s) i d v (by simp [hi]) (fun x => ⟨by rintro rfl; simp [Instr.operands] at hi, by rintro rfl; simp [Instr.operands] at hi⟩) (.computed v (hok _ _ _ hf))
    rwa [Instr.length, hi] at this

theorem effect_writeOf1 {f : Word → Except FaultKind Word} {a b : Operand} (i : Instr)
    (hi : i.operands = [(.dest, a), (.source, b)])
    (hok : ∀ vb v, s.resolve b = .ok vb → f vb = .ok v → Written s v)
    (herr : ∀ vb k, f vb = .error k → k ∈ executionFaults i) :
    ∃ t, s.commit (s.writeOf1 f a b) = .next t ∧ Effect s i t := by
  rcases h : s.writeOf1 f a b with k | t
  · refine ⟨_, rfl, .raised i k ?_⟩
    rw [firstOperandFault, hi]
    rcases writeOf1_eq_error h with h | ⟨h, vb, -, hf⟩
    · exact .inl h
    · exact .inr ⟨h, herr _ _ hf⟩
  · obtain ⟨d, vb, v, rfl, hb, hf, rfl⟩ := writeOf1_eq_ok.1 h
    refine ⟨_, rfl, ?_⟩
    have := Effect.wrote i d v (by simp [hi]) (fun x => ⟨by rintro rfl; simp [Instr.operands] at hi, by rintro rfl; simp [Instr.operands] at hi⟩) (hok _ _ hb hf)
    rwa [Instr.length, hi] at this

theorem effect_jumpIf {taken : Word → Bool} {a b : Operand} (i : Instr)
    (hi : i.operands = [(.source, a), (.source, b)]) (hj : i = .jt a b ∨ i = .jf a b) :
    ∃ t, s.commit (s.jumpIf taken a b) = .next t ∧ Effect s i t := by
  rcases h : s.jumpIf taken a b with k | t
  · exact ⟨_, rfl, .raised i k (.inl (by rw [firstOperandFault, hi]; exact jumpIf_eq_error h))⟩
  · obtain ⟨va, vb, -, -, rfl⟩ := jumpIf_eq_ok.1 h
    refine ⟨_, rfl, ?_⟩
    split
    · exact .jumped i (.inr (hj.imp (⟨a, b, ·⟩) (⟨a, b, ·⟩))) vb
    · have := Effect.fellThrough (s := s) i (by rcases hj with h | h <;> simp [h])
      rwa [Instr.length, hi] at this

/-- The fault of a source operand of a one-operand instruction. -/
theorem effect_badSource {i : Instr} {a : Operand} {k : FaultKind} (hi : i.operands = [(.source, a)])
    (h : s.resolve a = .error k) : Effect s i (s.raise k) := by
  refine .raised i k (.inl ?_)
  rw [firstOperandFault, hi, List.findSome?_cons, resolve_eq_error.1 h]

/-- The fault of the destination operand of a one-operand instruction. -/
theorem effect_badDest {i : Instr} {a : Operand} {k : FaultKind} (hi : i.operands = [(.dest, a)])
    (h : destReg a = .error k) : Effect s i (s.raise k) := by
  refine .raised i k (.inl ?_)
  rw [firstOperandFault, hi, List.findSome?_cons, destReg_eq_error.1 h]

theorem effect_push (a : Operand) : ∃ t, execPush a s = .next t ∧ Effect s (.push a) t := by
  unfold execPush
  rcases ha : s.resolve a with k | va
  · exact ⟨_, rfl, effect_badSource rfl ha⟩
  · rcases hf : s.stackFull with _ | _
    · rw [ok_bind, pushValue_eq_ok.2 ⟨hf, rfl⟩]
      exact ⟨_, rfl, .pushed a va ha hf⟩
    · rw [ok_bind, pushValue_eq_error.2 ⟨hf, rfl⟩]
      refine ⟨_, rfl, .raised _ _ (.inr ⟨?_, by simp [executionFaults]⟩)⟩
      simp [firstOperandFault, Instr.operands, operandFault_of_resolve ha]

theorem effect_pop (a : Operand) : ∃ t, execPop a s = .next t ∧ Effect s (.pop a) t := by
  unfold execPop
  rcases ha : destReg a with k | d
  · exact ⟨_, rfl, effect_badDest rfl ha⟩
  · obtain rfl := destReg_eq_ok.1 ha
    rcases List.eq_nil_or_concat s.stack with h | ⟨st, v, h⟩
    · rw [ok_bind, popValue_eq_none.2 h]
      exact ⟨_, rfl, .raised _ _ (.inr ⟨rfl, by simp [executionFaults]⟩)⟩
    · rw [List.concat_eq_append] at h
      rw [ok_bind, popValue_of_append h]
      exact ⟨_, rfl, .popped d st v h⟩

theorem effect_jmp (a : Operand) : ∃ t, execJmp a s = .next t ∧ Effect s (.jmp a) t := by
  unfold execJmp
  rcases ha : s.resolve a with k | va
  · exact ⟨_, rfl, effect_badSource rfl ha⟩
  · exact ⟨_, rfl, .jumped _ (.inl ⟨a, rfl⟩) va⟩

theorem effect_call (a : Operand) : ∃ t, execCall a s = .next t ∧ Effect s (.call a) t := by
  unfold execCall
  rcases ha : s.resolve a with k | va
  · exact ⟨_, rfl, effect_badSource rfl ha⟩
  · rcases hf : s.stackFull with _ | _
    · rw [ok_bind, pushValue_eq_ok.2 ⟨hf, rfl⟩]
      exact ⟨_, rfl, .called a va ha hf⟩
    · rw [ok_bind, pushValue_eq_error.2 ⟨hf, rfl⟩]
      refine ⟨_, rfl, .raised _ _ (.inr ⟨?_, by simp [executionFaults]⟩)⟩
      simp [firstOperandFault, Instr.operands, operandFault_of_resolve ha]

theorem effect_ret : ∃ t, execRet s = .next t ∧ Effect s .ret t := by
  unfold execRet
  rcases List.eq_nil_or_concat s.stack with h | ⟨st, v, h⟩
  · rw [popValue_eq_none.2 h]
    exact ⟨_, rfl, .retHalted h⟩
  · rw [List.concat_eq_append] at h
    rw [popValue_of_append h]
    exact ⟨_, rfl, .returned st v h⟩

theorem effect_wmem (a b : Operand) : ∃ t, execWmem a b s = .next t ∧ Effect s (.wmem a b) t := by
  unfold execWmem
  rcases ha : s.resolve a with k | va
  · refine ⟨_, rfl, .raised _ _ (.inl ?_)⟩
    rw [firstOperandFault, Instr.operands, List.findSome?_cons, resolve_eq_error.1 ha]
  · rw [ok_bind]
    have hfa := operandFault_of_resolve ha
    rcases hb : s.resolve b with k | vb
    · refine ⟨_, rfl, .raised _ _ (.inl ?_)⟩
      simp [firstOperandFault, Instr.operands, hfa, resolve_eq_error.1 hb]
    · have hfb := operandFault_of_resolve hb
      rw [ok_bind]
      rcases Nat.lt_or_ge va.toNat 32768 with h | h
      · rw [memWrite_of_lt h]
        exact ⟨_, rfl, .stored a b va vb ha hb h⟩
      · rw [memWrite_of_ge h]
        refine ⟨_, rfl, .raised _ _ (.inr ⟨?_, by simp [executionFaults]⟩)⟩
        simp [firstOperandFault, Instr.operands, hfa, hfb]

theorem effect_out (a : Operand) : ∃ t, execOut a s = .next t ∧ Effect s (.out a) t := by
  unfold execOut
  rcases ha : s.resolve a with k | va
  · exact ⟨_, rfl, effect_badSource rfl ha⟩
  · exact ⟨_, rfl, .wroteChar a va ha⟩

theorem effect_inp (a : Operand) : ∃ t, execInp a s = .next t ∧ Effect s (.inp a) t := by
  unfold execInp
  rcases ha : destReg a with k | d
  · exact ⟨_, rfl, effect_badDest rfl ha⟩
  · obtain rfl := destReg_eq_ok.1 ha
    rcases h : s.input.take with _ | ⟨ch, rest⟩
    · rw [ok_bind, inChar_eq_none.2 (take_eq_none.1 h)]
      exact ⟨_, rfl, .waited d (take_eq_none.1 h)⟩
    · rw [ok_bind, inChar_of_take h]
      exact ⟨_, rfl, .tookChar d ch rest h⟩

/-- Every instruction answers a next state, and `Effect` says which. -/
theorem exec_effect (i : Instr) (s : State) : ∃ t, exec i s = .next t ∧ Effect s i t := by
  cases i with
  | halt => exact ⟨_, rfl, .halted⟩
  | set a b =>
    exact effect_writeOf1 _ rfl (fun vb v hb hv => by
      simp only [Except.ok.injEq] at hv
      exact hv ▸ written_resolve hb) (fun _ _ h => by simp at h)
  | push a => exact effect_push a
  | pop a => exact effect_pop a
  | eq a b c =>
    exact effect_writeOf2 _ rfl (fun _ _ _ h => by
      simp only [Except.ok.injEq] at h
      exact h ▸ truthWord_le _) (fun _ _ _ h => by simp at h)
  | gt a b c =>
    exact effect_writeOf2 _ rfl (fun _ _ _ h => by
      simp only [Except.ok.injEq] at h
      exact h ▸ truthWord_le _) (fun _ _ _ h => by simp at h)
  | jmp a => exact effect_jmp a
  | jt a b => exact effect_jumpIf _ rfl (.inl rfl)
  | jf a b => exact effect_jumpIf _ rfl (.inr rfl)
  | add a b c =>
    exact effect_writeOf2 _ rfl (fun _ _ _ h => by
      simp only [Except.ok.injEq] at h
      exact h ▸ addResult_le _ _) (fun _ _ _ h => by simp at h)
  | mult a b c =>
    exact effect_writeOf2 _ rfl (fun _ _ _ h => by
      simp only [Except.ok.injEq] at h
      exact h ▸ multResult_le _ _) (fun _ _ _ h => by simp at h)
  | mod a b c =>
    exact effect_writeOf2 _ rfl (fun _ _ _ h => (modResult_eq_ok.1 h).2 ▸ mask15_le _)
      (fun _ _ _ h => by simp [executionFaults, (modResult_eq_error.1 h).2])
  | and a b c =>
    exact effect_writeOf2 _ rfl (fun _ _ _ h => by
      simp only [Except.ok.injEq] at h
      exact h ▸ mask15_le _) (fun _ _ _ h => by simp at h)
  | or a b c =>
    exact effect_writeOf2 _ rfl (fun _ _ _ h => by
      simp only [Except.ok.injEq] at h
      exact h ▸ mask15_le _) (fun _ _ _ h => by simp at h)
  | not a b =>
    exact effect_writeOf1 _ rfl (fun _ _ _ h => by
      simp only [Except.ok.injEq] at h
      exact .computed _ (h ▸ mask15_le _)) (fun _ _ h => by simp at h)
  | rmem a b =>
    exact effect_writeOf1 _ rfl (fun _ _ _ h => (memRead_eq_ok.1 h).2 ▸ .cell _)
      (fun _ _ h => by simp [executionFaults, (memRead_eq_error.1 h).2])
  | wmem a b => exact effect_wmem a b
  | call a => exact effect_call a
  | ret => exact effect_ret
  | out a => exact effect_out a
  | inp a => exact effect_inp a
  | noop => exact ⟨_, rfl, .fellThrough _ (.inr (.inr rfl))⟩

/-- The effect behind an answer of `exec`. -/
theorem effect_of_exec {i : Instr} {t : State} (h : exec i s = .next t) : Effect s i t := by
  obtain ⟨t', h', he⟩ := exec_effect i s
  rw [h] at h'
  cases h'
  exact he

/-- The first bad operand's fault is taken, whatever else holds (40_execution_cycle.md R86). -/
theorem exec_of_badOperand {i : Instr} {k : FaultKind} (h : firstOperandFault i = some k) :
    exec i s = .next (s.raise k) := by
  have bad3 : ∀ (f : Word → Word → Except FaultKind Word) (a b c : Operand),
      [(Role.dest, a), (.source, b), (.source, c)].findSome? operandFault = some k →
      s.writeOf2 f a b c = .error k := by
    intro f a b c hk
    cases a <;> cases b <;> cases c <;>
      simp_all [State.writeOf2, operandFault, List.findSome?]
  have bad2 : ∀ (f : Word → Except FaultKind Word) (a b : Operand),
      [(Role.dest, a), (.source, b)].findSome? operandFault = some k → s.writeOf1 f a b = .error k := by
    intro f a b hk
    cases a <;> cases b <;> simp_all [State.writeOf1, operandFault, List.findSome?]
  have badj : ∀ (f : Word → Bool) (a b : Operand),
      [(Role.source, a), (.source, b)].findSome? operandFault = some k → s.jumpIf f a b = .error k := by
    intro f a b hk
    cases a <;> cases b <;> simp_all [State.jumpIf, operandFault, List.findSome?]
  have bads : ∀ a : Operand, [(Role.source, a)].findSome? operandFault = some k → s.resolve a = .error k := by
    intro a hk
    cases a <;> simp_all [operandFault, List.findSome?]
  have badd : ∀ a : Operand, [(Role.dest, a)].findSome? operandFault = some k → destReg a = .error k := by
    intro a hk
    cases a <;> simp_all [operandFault, List.findSome?]
  cases i with
  | halt => cases h
  | ret => cases h
  | noop => cases h
  | set a b => exact congrArg s.commit (bad2 _ a b h)
  | push a => simp only [exec, execPush, bads a h, error_bind, commit_error]
  | pop a => simp only [exec, execPop, badd a h, error_bind, commit_error]
  | eq a b c => exact congrArg s.commit (bad3 _ a b c h)
  | gt a b c => exact congrArg s.commit (bad3 _ a b c h)
  | jmp a => simp only [exec, execJmp, bads a h, error_bind, commit_error]
  | jt a b => exact congrArg s.commit (badj _ a b h)
  | jf a b => exact congrArg s.commit (badj _ a b h)
  | add a b c => exact congrArg s.commit (bad3 _ a b c h)
  | mult a b c => exact congrArg s.commit (bad3 _ a b c h)
  | mod a b c => exact congrArg s.commit (bad3 _ a b c h)
  | and a b c => exact congrArg s.commit (bad3 _ a b c h)
  | or a b c => exact congrArg s.commit (bad3 _ a b c h)
  | not a b => exact congrArg s.commit (bad2 _ a b h)
  | rmem a b => exact congrArg s.commit (bad2 _ a b h)
  | wmem a b =>
    have h' : [(Role.source, a), (.source, b)].findSome? operandFault = some k := h
    rw [exec, execWmem]
    cases a <;> cases b <;> simp_all [operandFault, List.findSome?]
  | call a => simp only [exec, execCall, bads a h, error_bind, commit_error]
  | out a => simp only [exec, execOut, bads a h, error_bind, commit_error]
  | inp a => simp only [exec, execInp, badd a h, error_bind, commit_error]

end Sys2Proof.Machine
end

