-- ==== Sys2Proof/Laws/PerInstr.lean ====
section
/-! SUPPORT. Per instruction: the opcode map has its row, and the row's format has as many operands as the
instruction (30_encoding.md R61, R65). -/

/-- The opcode of the instruction selects a row of the opcode map whose format has the instruction's operand
count. -/
def Sys2Proof.Laws.RowOfOpcode.Statement (i : Sys2Proof.Instr) : Prop :=
  ∃ row, Sys2Proof.opcodeRow i.opcode = some row ∧ row.shape.operandCount = i.operands.length

open Sys2Proof

theorem Sys2Proof.Laws.RowOfOpcode.halt : Sys2Proof.Laws.RowOfOpcode.Statement (Instr.halt) := ⟨_, rfl, rfl⟩
theorem Sys2Proof.Laws.RowOfOpcode.set (a b : Operand) : Sys2Proof.Laws.RowOfOpcode.Statement (Instr.set a b) := ⟨_, rfl, rfl⟩
theorem Sys2Proof.Laws.RowOfOpcode.push (a : Operand) : Sys2Proof.Laws.RowOfOpcode.Statement (Instr.push a) := ⟨_, rfl, rfl⟩
theorem Sys2Proof.Laws.RowOfOpcode.pop (a : Operand) : Sys2Proof.Laws.RowOfOpcode.Statement (Instr.pop a) := ⟨_, rfl, rfl⟩
theorem Sys2Proof.Laws.RowOfOpcode.eq (a b c : Operand) : Sys2Proof.Laws.RowOfOpcode.Statement (Instr.eq a b c) := ⟨_, rfl, rfl⟩
theorem Sys2Proof.Laws.RowOfOpcode.gt (a b c : Operand) : Sys2Proof.Laws.RowOfOpcode.Statement (Instr.gt a b c) := ⟨_, rfl, rfl⟩
theorem Sys2Proof.Laws.RowOfOpcode.jmp (a : Operand) : Sys2Proof.Laws.RowOfOpcode.Statement (Instr.jmp a) := ⟨_, rfl, rfl⟩
theorem Sys2Proof.Laws.RowOfOpcode.jt (a b : Operand) : Sys2Proof.Laws.RowOfOpcode.Statement (Instr.jt a b) := ⟨_, rfl, rfl⟩
theorem Sys2Proof.Laws.RowOfOpcode.jf (a b : Operand) : Sys2Proof.Laws.RowOfOpcode.Statement (Instr.jf a b) := ⟨_, rfl, rfl⟩
theorem Sys2Proof.Laws.RowOfOpcode.add (a b c : Operand) : Sys2Proof.Laws.RowOfOpcode.Statement (Instr.add a b c) := ⟨_, rfl, rfl⟩
theorem Sys2Proof.Laws.RowOfOpcode.mult (a b c : Operand) : Sys2Proof.Laws.RowOfOpcode.Statement (Instr.mult a b c) := ⟨_, rfl, rfl⟩
theorem Sys2Proof.Laws.RowOfOpcode.mod (a b c : Operand) : Sys2Proof.Laws.RowOfOpcode.Statement (Instr.mod a b c) := ⟨_, rfl, rfl⟩
theorem Sys2Proof.Laws.RowOfOpcode.and (a b c : Operand) : Sys2Proof.Laws.RowOfOpcode.Statement (Instr.and a b c) := ⟨_, rfl, rfl⟩
theorem Sys2Proof.Laws.RowOfOpcode.or (a b c : Operand) : Sys2Proof.Laws.RowOfOpcode.Statement (Instr.or a b c) := ⟨_, rfl, rfl⟩
theorem Sys2Proof.Laws.RowOfOpcode.not (a b : Operand) : Sys2Proof.Laws.RowOfOpcode.Statement (Instr.not a b) := ⟨_, rfl, rfl⟩
theorem Sys2Proof.Laws.RowOfOpcode.rmem (a b : Operand) : Sys2Proof.Laws.RowOfOpcode.Statement (Instr.rmem a b) := ⟨_, rfl, rfl⟩
theorem Sys2Proof.Laws.RowOfOpcode.wmem (a b : Operand) : Sys2Proof.Laws.RowOfOpcode.Statement (Instr.wmem a b) := ⟨_, rfl, rfl⟩
theorem Sys2Proof.Laws.RowOfOpcode.call (a : Operand) : Sys2Proof.Laws.RowOfOpcode.Statement (Instr.call a) := ⟨_, rfl, rfl⟩
theorem Sys2Proof.Laws.RowOfOpcode.ret : Sys2Proof.Laws.RowOfOpcode.Statement (Instr.ret) := ⟨_, rfl, rfl⟩
theorem Sys2Proof.Laws.RowOfOpcode.out (a : Operand) : Sys2Proof.Laws.RowOfOpcode.Statement (Instr.out a) := ⟨_, rfl, rfl⟩
theorem Sys2Proof.Laws.RowOfOpcode.inp (a : Operand) : Sys2Proof.Laws.RowOfOpcode.Statement (Instr.inp a) := ⟨_, rfl, rfl⟩
theorem Sys2Proof.Laws.RowOfOpcode.noop : Sys2Proof.Laws.RowOfOpcode.Statement (Instr.noop) := ⟨_, rfl, rfl⟩
end

