-- ==== Sys2Proof/Laws/Step.lean ====
section
/-! SUPPORT. What fetch and step can do, said once. -/

namespace Sys2Proof.Machine

variable {s t : State}

/-! ## Fetch -/

theorem memReads_of_le {a : Word} {n : Nat} (h : a.toNat + n ≤ 32768) :
    s.memReads a n = .ok (s.cells a.toNat n) := by
  induction n generalizing a with
  | zero => rfl
  | succ n ih =>
    have ha : a.toNat < 32768 := by omega
    have h1 : (a + 1#16).toNat = a.toNat + 1 := by
      rw [BitVec.toNat_add, BitVec.toNat_ofNat]
      omega
    rw [State.memReads, memRead_of_lt ha, ok_bind, ih (by omega), ok_bind, pure_eq_ok, h1]
    simp only [State.cells, List.range_succ_eq_map, List.map_cons, List.map_map, Nat.add_zero]
    congr 2
    refine List.map_congr_left fun j _ => ?_
    simp only [Function.comp_apply]
    congr 1
    omega

theorem memReads_of_gt {a : Word} {n : Nat} (hn : 0 < n) (h : 32768 < a.toNat + n) (h' : a.toNat ≤ 32768) :
    s.memReads a n = .error .outOfRangeAddress := by
  induction n generalizing a with
  | zero => omega
  | succ n ih =>
    rcases Nat.lt_or_ge a.toNat 32768 with ha | ha
    · have h1 : (a + 1#16).toNat = a.toNat + 1 := by
        rw [BitVec.toNat_add, BitVec.toNat_ofNat]
        omega
      rw [State.memReads, memRead_of_lt ha, ok_bind, ih (by omega) (by omega) (by omega), error_bind]
    · rw [State.memReads, memRead_of_ge ha, error_bind]

@[simp] theorem cells_length (s : State) (a n : Nat) : (s.cells a n).length = n := by simp [State.cells]

theorem cells_succ (s : State) (a n : Nat) : s.cells a (n + 1) = s.cell a :: s.cells (a + 1) n := by
  simp only [State.cells, List.range_succ_eq_map, List.map_cons, List.map_map, Nat.add_zero]
  congr 1
  refine List.map_congr_left fun j _ => ?_
  simp only [Function.comp_apply]
  congr 1
  omega

theorem pc_add_one (h : s.pc.toNat < 32768) : (s.pc + 1#16).toNat = s.pc.toNat + 1 := by
  rw [BitVec.toNat_add, BitVec.toNat_ofNat]
  omega

/-- Phase 1 fails: the pc is above 32767 (40_execution_cycle.md R81). -/
theorem fetch_of_pc_ge (h : 32768 ≤ s.pc.toNat) : s.fetch = .error .outOfRangeAddress := by
  rw [State.fetch, memRead_of_ge h, error_bind]

/-- Phase 2 fails: no opcode (40_execution_cycle.md R82). -/
theorem fetch_of_unknown (h : s.pc.toNat < 32768) (ho : opcodeRow (s.cell s.pc.toNat) = none) :
    s.fetch = .error .unknownOpcode := by
  rw [State.fetch, memRead_of_lt h, ok_bind, ho]

/-- Phase 3 fails: an operand Word would lie above 32767 (40_execution_cycle.md R83). -/
theorem fetch_of_operand_gt {row : OpRow} (h : s.pc.toNat < 32768)
    (ho : opcodeRow (s.cell s.pc.toNat) = some row) (hn : 32768 ≤ s.pc.toNat + row.shape.operandCount) :
    s.fetch = .error .outOfRangeAddress := by
  rw [State.fetch, memRead_of_lt h, ok_bind, ho]
  simp only
  rw [memReads_of_gt (by omega) (by rw [pc_add_one h]; omega) (by rw [pc_add_one h]; omega), error_bind]

/-- Phases 1 to 3 succeed: the Words at the pc are decoded. -/
theorem fetch_of_le {row : OpRow} {i : Instr} (ho : opcodeRow (s.cell s.pc.toNat) = some row)
    (hn : s.pc.toNat + row.shape.operandCount < 32768)
    (hb : row.shape.build (s.cells (s.pc.toNat + 1) row.shape.operandCount) = .ok (i, [])) :
    s.fetch = .ok i := by
  have h : s.pc.toNat < 32768 := by omega
  rw [State.fetch, memRead_of_lt h, ok_bind, ho]
  simp only
  rw [memReads_of_le (by rw [pc_add_one h]; omega), ok_bind, pc_add_one h, hb]
  rfl

/-- The four ways phases 1 to 3 end. -/
theorem fetch_cases (s : State) :
    (32768 ≤ s.pc.toNat ∧ s.fetch = .error .outOfRangeAddress) ∨
    (s.pc.toNat < 32768 ∧ opcodeRow (s.cell s.pc.toNat) = none ∧ s.fetch = .error .unknownOpcode) ∨
    (∃ row, s.pc.toNat < 32768 ∧ opcodeRow (s.cell s.pc.toNat) = some row ∧
      32768 ≤ s.pc.toNat + row.shape.operandCount ∧ s.fetch = .error .outOfRangeAddress) ∨
    (∃ row i, opcodeRow (s.cell s.pc.toNat) = some row ∧ s.pc.toNat + row.shape.operandCount < 32768 ∧
      row.shape.build (s.cells (s.pc.toNat + 1) row.shape.operandCount) = .ok (i, []) ∧ s.fetch = .ok i) := by
  rcases Nat.lt_or_ge s.pc.toNat 32768 with h | h
  · rcases ho : opcodeRow (s.cell s.pc.toNat) with _ | row
    · exact .inr (.inl ⟨h, rfl, fetch_of_unknown h ho⟩)
    · rcases Nat.lt_or_ge (s.pc.toNat + row.shape.operandCount) 32768 with hn | hn
      · obtain ⟨i, hi, -⟩ := build_append (sh := row.shape) (rest := [])
          (cells_length s (s.pc.toNat + 1) row.shape.operandCount).symm
        exact .inr (.inr (.inr ⟨row, i, rfl, hn, hi, fetch_of_le ho hn hi⟩))
      · exact .inr (.inr (.inl ⟨row, h, rfl, hn, fetch_of_operand_gt h ho hn⟩))
  · exact .inl ⟨h, fetch_of_pc_ge h⟩

/-- A fetched instruction is what the decoder reads from the Words at the pc. -/
theorem fetch_of_codeAt {ws : List Word} {i : Instr} (hc : s.codeAt ws) (hd : decode ws = .ok (i, [])) :
    s.fetch = .ok i := by
  obtain ⟨hle, hws⟩ := hc
  match ws, hd with
  | op :: ops, hd =>
    rw [List.length_cons, cells_succ] at hws
    injection hws with h0 h1
    simp only [decode] at hd
    rcases ho : opcodeRow op with _ | row
    · rw [ho] at hd
      cases hd
    · rw [ho] at hd
      simp only at hd
      obtain ⟨hcnt, hrest⟩ := build_eq_ok hd
      have hlen : row.shape.operandCount = ops.length := by
        have := congrArg List.length hrest
        simp only [List.length_nil, List.length_drop] at this
        omega
      simp only [List.length_cons, memWords] at hle
      refine fetch_of_le (row := row) (by rw [h0, ho]) (by omega) ?_
      rw [hlen, h1]
      exact hd

/-! ## Step -/

theorem step_of_fetch {i : Instr} (hr : s.run = .running) (h : s.fetch = .ok i) : step s = exec i s := by
  simp [step, hr, h]

theorem step_of_fetch_error {k : FaultKind} (hr : s.run = .running) (h : s.fetch = .error k) :
    step s = .next (s.raise k) := by
  simp [step, hr, h]

theorem step_of_terminal (h : s.run ≠ .running) : step s = .next s := by
  unfold step
  cases hr : s.run <;> simp_all

/-- Everything a step can do: stay in a terminal state, take a fault of phases 1 to 3, or execute the
instruction at the pc. -/
theorem step_cases (h : step s = .next t) :
    (s.run ≠ .running ∧ t = s) ∨
    (s.run = .running ∧ ∃ k, s.fetch = .error k ∧ t = s.raise k) ∨
    (s.run = .running ∧ ∃ i, s.fetch = .ok i ∧ exec i s = .next t ∧ Effect s i t) := by
  by_cases hr : s.run = .running
  · rcases hf : s.fetch with k | i
    · rw [step_of_fetch_error hr hf] at h
      cases h
      exact .inr (.inl ⟨hr, k, rfl, rfl⟩)
    · rw [step_of_fetch hr hf] at h
      exact .inr (.inr ⟨hr, i, rfl, h, effect_of_exec h⟩)
  · rw [step_of_terminal hr] at h
    cases h
    exact .inl ⟨hr, rfl⟩

/-- Every step answers a next state: this model never stops. -/
theorem step_next (s : State) : ∃ t, step s = .next t := by
  by_cases hr : s.run = .running
  · rcases hf : s.fetch with k | i
    · exact ⟨_, step_of_fetch_error hr hf⟩
    · obtain ⟨t, ht, -⟩ := exec_effect i s
      exact ⟨t, (step_of_fetch hr hf).trans ht⟩
  · exact ⟨s, step_of_terminal hr⟩

end Sys2Proof.Machine
end

