-- ==== Sys2Proof/Laws/Run.lean ====
section
/-! SUPPORT. How a step depends on the input still to come and on the output so far: `exec_withStreams` for every
instruction but `in`, `exec_inp_cases` for `in`, and `step_input_cases` for the step. -/

namespace Sys2Proof.Machine

variable {s t : State}

/-! ## Another input and more output before -/

/-- The state with another input still to come, and more output before its own. -/
def State.withStreams (s : State) (input : InputSeq) (before : List Byte) : State :=
  { s with input := input, output := before ++ s.output }

theorem withStreams_nil (s : State) (x : InputSeq) : s.withStreams x [] = s.withInput x := rfl

section
variable (x : InputSeq) (before : List Byte)

@[simp] theorem withStreams_run : (s.withStreams x before).run = s.run := rfl

@[simp] theorem withStreams_input : (s.withStreams x before).input = x := rfl

@[simp] theorem withStreams_resolve (a : Operand) : (s.withStreams x before).resolve a = s.resolve a := by
  cases a <;> rfl

@[simp] theorem withStreams_memReads (a : Word) (n : Nat) :
    (s.withStreams x before).memReads a n = s.memReads a n := by
  induction n generalizing a with
  | zero => rfl
  | succ n ih => simp only [State.memReads, ih]; rfl

@[simp] theorem withStreams_fetch : (s.withStreams x before).fetch = s.fetch := by
  simp only [State.fetch, withStreams_memReads]
  rfl

/-- An outcome with its next state's streams changed. -/
def withStreamsOutcome : Host.Outcome State Fault Refusal → Host.Outcome State Fault Refusal
  | .next t => .next (t.withStreams x before)
  | .fault f => .fault f
  | .refused r => .refused r

theorem commit_withStreams (r : Except FaultKind State) :
    (s.withStreams x before).commit (r.map (·.withStreams x before)) =
      withStreamsOutcome x before (s.commit r) := by
  cases r <;> rfl

theorem writeOf2_withStreams (f : Word → Word → Except FaultKind Word) (a b c : Operand) :
    (s.withStreams x before).writeOf2 f a b c = (s.writeOf2 f a b c).map (·.withStreams x before) := by
  simp only [State.writeOf2, withStreams_resolve]
  rcases destReg a with _ | d <;> [rfl; skip]
  rcases s.resolve b with _ | vb <;> [rfl; skip]
  rcases s.resolve c with _ | vc <;> [rfl; skip]
  simp only [ok_bind]
  rcases f vb vc <;> rfl

theorem writeOf1_withStreams (f : Word → Except FaultKind Word) (a b : Operand) :
    (s.withStreams x before).writeOf1 f a b = (s.writeOf1 f a b).map (·.withStreams x before) := by
  simp only [State.writeOf1, withStreams_resolve]
  rcases destReg a with _ | d <;> [rfl; skip]
  rcases s.resolve b with _ | vb <;> [rfl; skip]
  simp only [ok_bind]
  rcases f vb <;> rfl

theorem jumpIf_withStreams (f : Word → Bool) (a b : Operand) :
    (s.withStreams x before).jumpIf f a b = (s.jumpIf f a b).map (·.withStreams x before) := by
  simp only [State.jumpIf, withStreams_resolve]
  rcases s.resolve a with _ | va <;> [rfl; skip]
  rcases s.resolve b with _ | vb <;> [rfl; skip]
  simp only [ok_bind]
  cases f va <;> rfl

theorem pushValue_withStreams (v : Word) :
    (s.withStreams x before).pushValue v = (s.pushValue v).map (·.withStreams x before) := by
  simp only [State.pushValue, show (s.withStreams x before).stackFull = s.stackFull from rfl]
  cases s.stackFull <;> rfl

theorem popValue_withStreams :
    (s.withStreams x before).popValue = s.popValue.map fun p => (p.1, p.2.withStreams x before) := by
  simp only [State.popValue, show (s.withStreams x before).stack = s.stack from rfl]
  cases s.stack.getLast? <;> rfl

/-- An instruction other than `in` does the same whatever the streams (60_exceptions.md R170). -/
theorem exec_withStreams (i : Instr) (hi : ∀ a, i ≠ .inp a) :
    exec i (s.withStreams x before) = withStreamsOutcome x before (exec i s) := by
  cases i with
  | halt => rfl
  | noop => rfl
  | inp a => exact absurd rfl (hi a)
  | ret =>
    simp only [exec, execRet, popValue_withStreams]
    cases s.popValue <;> rfl
  | push a =>
    simp only [exec, execPush, withStreams_resolve]
    rcases s.resolve a with _ | va <;> [rfl; skip]
    simp only [ok_bind, pushValue_withStreams]
    cases s.pushValue va <;> rfl
  | pop a =>
    simp only [exec, execPop, popValue_withStreams]
    rcases destReg a with _ | d <;> [rfl; skip]
    cases s.popValue <;> rfl
  | jmp a =>
    simp only [exec, execJmp, withStreams_resolve]
    cases s.resolve a <;> rfl
  | call a =>
    simp only [exec, execCall, withStreams_resolve]
    rcases s.resolve a with _ | va <;> [rfl; skip]
    simp only [ok_bind, State.pushValue, show (s.withStreams x before).stackFull = s.stackFull from rfl]
    cases s.stackFull <;> rfl
  | out a =>
    simp only [exec, execOut, withStreams_resolve]
    rcases s.resolve a with _ | va <;> [rfl; skip]
    simp [withStreamsOutcome, State.withStreams, State.outChar, State.advance]
  | wmem a b =>
    simp only [exec, execWmem, withStreams_resolve]
    rcases s.resolve a with _ | va <;> [rfl; skip]
    rcases s.resolve b with _ | vb <;> [rfl; skip]
    simp only [ok_bind, State.memWrite]
    split <;> rfl
  | rmem a b =>
    exact (congrArg _ (writeOf1_withStreams x before s.memRead a b)).trans (commit_withStreams x before _)
  | set a b => simp only [exec, execSet, writeOf1_withStreams, commit_withStreams]
  | not a b => simp only [exec, execNot, writeOf1_withStreams, commit_withStreams]
  | jt a b => simp only [exec, execJt, jumpIf_withStreams, commit_withStreams]
  | jf a b => simp only [exec, execJf, jumpIf_withStreams, commit_withStreams]
  | eq a b c => simp only [exec, execEq, writeOf2_withStreams, commit_withStreams]
  | gt a b c => simp only [exec, execGt, writeOf2_withStreams, commit_withStreams]
  | add a b c => simp only [exec, execAdd, writeOf2_withStreams, commit_withStreams]
  | mult a b c => simp only [exec, execMult, writeOf2_withStreams, commit_withStreams]
  | mod a b c => simp only [exec, execMod, writeOf2_withStreams, commit_withStreams]
  | and a b c => simp only [exec, execAnd, writeOf2_withStreams, commit_withStreams]
  | or a b c => simp only [exec, execOr, writeOf2_withStreams, commit_withStreams]

end

/-! ## The instruction that takes a character -/

theorem exec_inp_of_take {d : RegIndex} {ch : Byte} {rest : InputSeq} (h : s.input.take = some (ch, rest)) :
    exec (.inp (.register d)) s =
      .next (((s.withInput rest).writeReg d (ch.setWidth 16)).advance 2) := by
  simp only [exec, execInp, destReg_register, ok_bind, inChar_of_take h]
  rfl

theorem exec_inp_of_empty {d : RegIndex} (h : s.input = .finite []) : exec (.inp (.register d)) s = .next s := by
  simp only [exec, execInp, destReg_register, ok_bind, inChar_eq_none.2 h]
  rfl

/-- The three ways an `in` ends: a bad destination, a character taken, or a wait. -/
theorem exec_inp_cases (a : Operand) (s : State) :
    (∃ k, destReg a = .error k ∧ exec (.inp a) s = .next (s.raise k)) ∨
    (∃ d ch rest, a = .register d ∧ s.input.take = some (ch, rest) ∧
      exec (.inp a) s = .next (((s.withInput rest).writeReg d (ch.setWidth 16)).advance 2)) ∨
    (∃ d, a = .register d ∧ s.input = .finite [] ∧ exec (.inp a) s = .next s) := by
  rcases ha : destReg a with k | d
  · exact .inl ⟨k, rfl, by simp only [exec, execInp, ha, error_bind, commit_error]⟩
  · obtain rfl := destReg_eq_ok.1 ha
    rcases h : s.input.take with _ | ⟨ch, rest⟩
    · exact .inr (.inr ⟨d, rfl, take_eq_none.1 h, exec_inp_of_empty (take_eq_none.1 h)⟩)
    · exact .inr (.inl ⟨d, ch, rest, rfl, rfl, exec_inp_of_take h⟩)

/-- With another input that has the same next character (or none, as this one has none), a step does the same and
leaves the rest of that input: it takes that one character or nothing (46_system_io.md R152, R156). -/
theorem step_input_cases (h : step s = .next t) {x : InputSeq} (hx : x.char? 0 = s.input.char? 0) :
    (t.input = s.input ∧ step (s.withInput x) = .next (t.withInput x)) ∨
    ∃ ch rest rest', s.input.take = some (ch, rest) ∧ x.take = some (ch, rest') ∧ t.input = rest ∧
      step (s.withInput x) = .next (t.withInput rest') := by
  have fetch_eq : (s.withInput x).fetch = s.fetch := withStreams_fetch x []
  rcases step_cases h with ⟨hr, rfl⟩ | ⟨hr, k, hf, rfl⟩ | ⟨hr, i, hf, he, heff⟩
  · exact .inl ⟨rfl, step_of_terminal (s := t.withInput x) hr⟩
  · exact .inl ⟨rfl, step_of_fetch_error (s := s.withInput x) hr (fetch_eq.trans hf)⟩
  · rw [step_of_fetch (s := s.withInput x) hr (fetch_eq.trans hf)]
    by_cases hi : ∃ a, i = .inp a
    · obtain ⟨a, rfl⟩ := hi
      rcases exec_inp_cases a s with ⟨k, hk, e⟩ | ⟨d, ch, rest, rfl, ht, e⟩ | ⟨d, rfl, hn, e⟩ <;>
        obtain rfl := Host.Outcome.next.inj (he.symm.trans e)
      · exact .inl ⟨rfl, by simp only [exec, execInp, hk, error_bind, commit_error]; rfl⟩
      · obtain ⟨rest', ht'⟩ := take_of_char? (hx.trans (take_spec ht).1)
        exact .inr ⟨ch, rest, rest', ht, ht', rfl, exec_inp_of_take (s := s.withInput x) ht'⟩
      · have hx' : x = .finite [] := take_eq_none.1 (take_eq_none_iff_char?.2 (by rw [hx, hn]; rfl))
        exact .inl ⟨rfl, exec_inp_of_empty (s := t.withInput x) hx'⟩
    · have hi' : ∀ a, i ≠ .inp a := fun a e => hi ⟨a, e⟩
      have he' : exec i (s.withInput x) = .next (t.withInput x) := by
        rw [← withStreams_nil, exec_withStreams x [] i hi', he]
        rfl
      refine .inl ⟨?_, he'⟩
      cases heff <;> first | rfl | exact absurd rfl (hi' _)

/-! ## Runs on an argument -/

/-- `runOn` gives every step its own next character, so the input the state holds does not count. -/
theorem runOn_succ (chars : Nat → Byte) (n : Nat) (x : InputSeq) :
    runOn chars (n + 1) (s.withInput x) = runOn chars (n + 1) s := rfl

end Sys2Proof.Machine
end

