-- ==== Sys2Proof/Tests/Slice0.lean ====
section
/-! SUPPORT. Tests of single steps, with the expected values of 95_test_vectors.md (the vector's id is named at each
test); decodings of words written out from 30_encoding.md; and for each statement a witness that its
hypotheses can be met. -/

namespace Sys2Proof.Tests

open Sys2Proof.Machine

/-- The reset state with the pc and some Words at it. -/
def codeState (pc : Word) (ws : List Word) : State := (State.reset.jumpTo pc).placeWords pc.toNat ws

/-- The state after one step. -/
def after (s : State) : State :=
  match step s with
  | .next t => t
  | .fault _ => s
  | .refused _ => s

/-- A step ended in this fault, at this pc, with nothing else changed (the "Faulted K @ n" of 95_test_vectors.md). -/
abbrev faultsWith (s : State) (k : FaultKind) (pc : Word) : Prop :=
  after s = { s with run := .faulted, faultKind := some k, faultPc := pc } ∧ s.pc = pc

/-- A stack bounded at `n` entries. -/
def bounded (n : Nat) (s : State) : State := { s with cfg := { s.cfg with stackDepth := some n } }

/-! ## Well-formedness: one ill-formed term for each check, refused (30_encoding.md R67) -/

theorem test_wf_accepts : (Instr.add (.register 0) (.literal 5#15) (.register 7)).wellFormed = true := by decide
theorem test_wf_literalDestination : (Instr.set (.literal 5#15) (.literal 6#15)).wellFormed = false := by decide
theorem test_wf_invalidDestination : (Instr.pop (.invalid 0)).wellFormed = false := by decide
theorem test_wf_invalidSource : (Instr.jt (.literal 0#15) (.invalid 0)).wellFormed = false := by decide
theorem test_wf_invalidLastSource : (Instr.mod (.register 0) (.literal 1#15) (.invalid 32759)).wellFormed = false := by
  decide
theorem test_wf_wmemLiteralAddress : (Instr.wmem (.literal 5#15) (.register 0)).wellFormed = true := by decide

/-! ## Decoding: Words written out from the opcode map and the operand classes (30_encoding.md R63, R65) -/

theorem test_decode_halt : decode [0x0000#16] = .ok (.halt, []) := rfl
theorem test_decode_set : decode [0x0001#16, 0x8001#16, 0x04D2#16] = .ok (.set (.register 1) (.literal 1234#15), []) := rfl
theorem test_decode_push : decode [0x0002#16, 0x8000#16] = .ok (.push (.register 0), []) := rfl
theorem test_decode_pop : decode [0x0003#16, 0x8002#16] = .ok (.pop (.register 2), []) := rfl
theorem test_decode_eq : decode [0x0004#16, 0x8000#16, 0x8001#16, 0x000A#16] =
    .ok (.eq (.register 0) (.register 1) (.literal 10#15), []) := rfl
theorem test_decode_gt : decode [0x0005#16, 0x8007#16, 0x7FFF#16, 0x0000#16] =
    .ok (.gt (.register 7) (.literal 32767#15) (.literal 0#15), []) := rfl
theorem test_decode_jmp : decode [0x0006#16, 0x0064#16] = .ok (.jmp (.literal 100#15), []) := rfl
theorem test_decode_jt : decode [0x0007#16, 0x8000#16, 0x0003#16] = .ok (.jt (.register 0) (.literal 3#15), []) := rfl
theorem test_decode_jf : decode [0x0008#16, 0x8001#16, 0x0000#16] = .ok (.jf (.register 1) (.literal 0#15), []) := rfl
theorem test_decode_add : decode [0x0009#16, 0x8000#16, 0x8001#16, 0x0004#16] =
    .ok (.add (.register 0) (.register 1) (.literal 4#15), []) := rfl
theorem test_decode_mult : decode [0x000A#16, 0x8000#16, 0x012C#16, 0x012C#16] =
    .ok (.mult (.register 0) (.literal 300#15) (.literal 300#15), []) := rfl
theorem test_decode_mod : decode [0x000B#16, 0x8001#16, 0x8000#16, 0x03E8#16] =
    .ok (.mod (.register 1) (.register 0) (.literal 1000#15), []) := rfl
theorem test_decode_and : decode [0x000C#16, 0x8003#16, 0x8002#16, 0x00FF#16] =
    .ok (.and (.register 3) (.register 2) (.literal 255#15), []) := rfl
theorem test_decode_or : decode [0x000D#16, 0x8004#16, 0x8003#16, 0x0100#16] =
    .ok (.or (.register 4) (.register 3) (.literal 256#15), []) := rfl
theorem test_decode_not : decode [0x000E#16, 0x8002#16, 0x8001#16] = .ok (.not (.register 2) (.register 1), []) := rfl
theorem test_decode_rmem : decode [0x000F#16, 0x8000#16, 0x0005#16] = .ok (.rmem (.register 0) (.literal 5#15), []) := rfl
theorem test_decode_wmem : decode [0x0010#16, 0x0005#16, 0x8000#16] = .ok (.wmem (.literal 5#15) (.register 0), []) := rfl
theorem test_decode_call : decode [0x0011#16, 0x0006#16] = .ok (.call (.literal 6#15), []) := rfl
theorem test_decode_ret : decode [0x0012#16] = .ok (.ret, []) := rfl
theorem test_decode_out : decode [0x0013#16, 0x0061#16] = .ok (.out (.literal 97#15), []) := rfl
theorem test_decode_in : decode [0x0014#16, 0x8000#16] = .ok (.inp (.register 0), []) := rfl
theorem test_decode_noop : decode [0x0015#16] = .ok (.noop, []) := rfl
theorem test_decode_unknown : decode [0x0016#16] = .error (.unknownOpcode 22#16) := rfl
theorem test_decode_registerIsNoOpcode : decode [0x8000#16, 0x0000#16] = .error (.unknownOpcode 32768#16) := rfl
theorem test_decode_missing : decode [0x0009#16, 0x8000#16, 0x8001#16] = .error .missingOperand := rfl

/-- The encoding vectors of 95_test_vectors.md section 8. -/
theorem test_operand_classes :
    decodeOperand 0#16 = .literal 0#15 ∧ decodeOperand 32767#16 = .literal 32767#15 ∧
    decodeOperand 32768#16 = .register 0 ∧ decodeOperand 32775#16 = .register 7 ∧
    decodeOperand 32776#16 = .invalid 0 ∧ decodeOperand 65535#16 = .invalid 32759 := by decide

/-- Image bytes `13 00 61 00 00 00` are the Words 19, 97, 0 (95_test_vectors.md section 8). -/
theorem test_image_bytes : wordsOfBytes [0x13#8, 0x00#8, 0x61#8, 0x00#8, 0x00#8, 0x00#8] =
    some [19#16, 97#16, 0#16] := by decide

/-- Bits are numbered from the first Word: 0x8000_8000_8001_0009 is `add r1, r0, r0`. -/
theorem test_table_word : decodeTableWord 64 0x8000800080010009 =
    some (.add (.register 1) (.register 0) (.register 0)) := by decide
/-- Operand Words the table gives no bits are 0. -/
theorem test_table_word_short : decodeTableWord 16 0x0006 = some (.jmp (.literal 0#15)) := by decide

/-- The next step runs the placed instruction: `jmp 100` from reset. -/
theorem test_withFetchWord : (after (State.reset.withFetchWord 32 0x00640006)).pc = 100#16 := by decide

/-! ## Single steps -/

-- V1, V2
theorem test_set_literal : (after (codeState 0#16 [1#16, 32769#16, 1234#16])).readReg 1 = 1234#16 ∧
    (after (codeState 0#16 [1#16, 32769#16, 1234#16])).pc = 3#16 := by decide
theorem test_set_copies_unmasked :
    (after ((codeState 0#16 [1#16, 32768#16, 32769#16]).writeReg 1 40000#16)).readReg 0 = 40000#16 := by decide
-- V7, V14
theorem test_push_register : (after ((codeState 10#16 [2#16, 32768#16]).writeReg 0 7#16)).stack = [7#16] ∧
    (after ((codeState 10#16 [2#16, 32768#16]).writeReg 0 7#16)).pc = 12#16 := by decide
theorem test_push_overflow :
    faultsWith (bounded 2 ((codeState 0#16 [2#16, 1#16]).withStack [1#16, 2#16])) .stackOverflow 0#16 := by decide
-- V10, V12
theorem test_pop_top : (after ((codeState 4#16 [3#16, 32770#16]).withStack [5#16, 9#16])).readReg 2 = 9#16 ∧
    (after ((codeState 4#16 [3#16, 32770#16]).withStack [5#16, 9#16])).stack = [5#16] := by decide
theorem test_pop_checks_destination_first :
    faultsWith (codeState 0#16 [3#16, 5#16]) .invalidDestination 0#16 ∧
    faultsWith (codeState 4#16 [3#16, 32770#16]) .stackUnderflow 4#16 := by decide
-- V15, V17
theorem test_eq_true : (after ((codeState 0#16 [4#16, 32768#16, 32769#16, 10#16]).writeReg 1 10#16)).readReg 0 = 1#16 := by
  decide
theorem test_eq_sixteen_bits :
    (after (((codeState 0#16 [4#16, 32768#16, 32769#16, 0#16]).writeReg 0 9#16).writeReg 1 32768#16)).readReg 0 =
      0#16 := by decide
-- V18 and V20, V22
theorem test_gt_strict : (after (codeState 8#16 [5#16, 32768#16, 5#16, 3#16])).readReg 0 = 1#16 ∧
    (after ((codeState 0#16 [5#16, 32768#16, 5#16, 5#16]).writeReg 0 9#16)).readReg 0 = 0#16 := by decide
theorem test_gt_unsigned :
    (after ((codeState 0#16 [5#16, 32768#16, 32769#16, 32767#16]).writeReg 1 32768#16)).readReg 0 = 1#16 := by decide
-- V25 with the step after it, V27
theorem test_jmp_out_of_range :
    (after ((codeState 0#16 [6#16, 32768#16]).writeReg 0 40000#16)).pc = 40000#16 ∧
    faultsWith (after ((codeState 0#16 [6#16, 32768#16]).writeReg 0 40000#16)) .outOfRangeAddress 40000#16 := by decide
theorem test_jmp_last_word : faultsWith (codeState 32767#16 [6#16]) .outOfRangeAddress 32767#16 := by decide
-- V28 and V29, V30
theorem test_jt : (after ((codeState 11#16 [7#16, 32768#16, 3#16]).writeReg 0 2#16)).pc = 3#16 ∧
    (after (codeState 11#16 [7#16, 32768#16, 3#16])).pc = 14#16 := by decide
theorem test_jt_untaken_resolves : faultsWith (codeState 0#16 [7#16, 0#16, 32776#16]) .invalidOperand 0#16 := by decide
-- V32 and V33
theorem test_jf : (after (codeState 8#16 [8#16, 32769#16, 0#16])).pc = 0#16 ∧
    (after ((codeState 8#16 [8#16, 32769#16, 0#16]).writeReg 1 1#16)).pc = 11#16 := by decide
-- V36, V38
theorem test_call :
    (after (((codeState 20#16 [17#16, 32771#16]).writeReg 3 500#16).withStack [9#16])).stack = [9#16, 22#16] ∧
    (after (((codeState 20#16 [17#16, 32771#16]).writeReg 3 500#16).withStack [9#16])).pc = 500#16 := by decide
theorem test_call_last_address : (after (codeState 32766#16 [17#16, 10#16])).stack = [32768#16] ∧
    (after (codeState 32766#16 [17#16, 10#16])).pc = 10#16 := by decide
-- V39, V40
theorem test_ret : (after ((codeState 16#16 [18#16]).withStack [2#16])).pc = 2#16 ∧
    (after ((codeState 16#16 [18#16]).withStack [2#16])).stack = [] := by decide
theorem test_ret_empty : (after (codeState 16#16 [18#16])).run = .halted ∧
    (after (codeState 16#16 [18#16])).faultKind = none ∧ (after (codeState 16#16 [18#16])).pc = 16#16 := by decide
-- A2, A5
theorem test_add_wraps : (after (codeState 0#16 [9#16, 32768#16, 32767#16, 5#16])).readReg 0 = 4#16 := by decide
theorem test_add_same_register :
    (after ((codeState 0#16 [9#16, 32768#16, 32768#16, 32768#16]).writeReg 0 20000#16)).readReg 0 = 7232#16 := by decide
-- A10, A15
theorem test_mult : (after (codeState 0#16 [10#16, 32768#16, 300#16, 300#16])).readReg 0 = 24464#16 := by decide
theorem test_mult_wide :
    (after ((codeState 0#16 [10#16, 32768#16, 32769#16, 32769#16]).writeReg 1 65535#16)).readReg 0 = 1#16 := by decide
-- A22, A17
theorem test_mod_masked :
    (after (((codeState 0#16 [11#16, 32768#16, 32769#16, 32770#16]).writeReg 1 40000#16).writeReg 2 50000#16)).readReg 0 =
      7232#16 := by decide
theorem test_mod_by_zero : faultsWith (codeState 0#16 [11#16, 32768#16, 7#16, 0#16]) .modByZero 0#16 := by decide
-- A25, A26
theorem test_and : (after ((codeState 11#16 [12#16, 32771#16, 32770#16, 255#16]).writeReg 2 32303#16)).readReg 3 = 47#16 := by
  decide
theorem test_and_masked :
    (after (((codeState 0#16 [12#16, 32768#16, 32769#16, 32770#16]).writeReg 1 65535#16).writeReg 2 65535#16)).readReg 0 =
      32767#16 := by decide
-- A28, A29
theorem test_or : (after ((codeState 15#16 [13#16, 32772#16, 32771#16, 256#16]).writeReg 3 47#16)).readReg 4 = 303#16 := by
  decide
theorem test_or_masked :
    (after ((codeState 0#16 [13#16, 32768#16, 32769#16, 0#16]).writeReg 1 32773#16)).readReg 0 = 5#16 := by decide
-- A33, A35
theorem test_not : (after ((codeState 8#16 [14#16, 32770#16, 32769#16]).writeReg 1 464#16)).readReg 2 = 32303#16 := by decide
theorem test_not_masked :
    (after ((codeState 0#16 [14#16, 32768#16, 32769#16]).writeReg 1 65535#16)).readReg 0 = 0#16 := by decide
-- M4, M2
theorem test_rmem_same_register :
    (after (((codeState 0#16 [15#16, 32768#16, 32768#16]).writeReg 0 3#16).setCell 3 77#16)).readReg 0 = 77#16 := by decide
theorem test_rmem_out_of_range :
    faultsWith ((codeState 0#16 [15#16, 32768#16, 32769#16]).writeReg 1 32768#16) .outOfRangeAddress 0#16 := by decide
-- M11, M8
theorem test_wmem_over_itself : (after (codeState 0#16 [16#16, 0#16, 21#16])).mem = [(0, 21#16), (2, 21#16)] ∧
    (after (codeState 0#16 [16#16, 0#16, 21#16])).pc = 3#16 := by decide
theorem test_wmem_register_address :
    (after ((codeState 0#16 [16#16, 32768#16, 5#16]).writeReg 0 300#16)).cell 300 = 5#16 ∧
    (after ((codeState 0#16 [16#16, 32768#16, 5#16]).writeReg 0 300#16)).cell 5 = 0#16 := by decide
-- Y1
theorem test_halt : (after (codeState 6#16 [0#16])).run = .halted ∧ (after (codeState 6#16 [0#16])).pc = 6#16 := by decide
-- Y3, Y4
theorem test_out_low_bits : (after (codeState 0#16 [19#16, 353#16])).output = [97#8] ∧
    (after ((codeState 0#16 [19#16, 32768#16]).writeReg 0 65535#16)).output = [255#8] := by decide
-- Y6, Y7 and Y8
theorem test_in_takes_one : (after ((codeState 0#16 [20#16, 32768#16]).withInput (.finite [104#8, 105#8]))).readReg 0 = 104#16 ∧
    (after ((codeState 0#16 [20#16, 32768#16]).withInput (.finite [104#8, 105#8]))).input = .finite [105#8] := by decide
/-- Y6 with an infinite `INPUT`: `in` never waits, and the characters after the one it takes stay. -/
theorem test_in_infinite :
    after ((codeState 0#16 [20#16, 32768#16]).withInput (.infinite [104#8] 3 0)) =
      (((codeState 0#16 [20#16, 32768#16]).withInput (.infinite [] 3 0)).writeReg 0 104#16).advance 2 ∧
    (after ((codeState 0#16 [20#16, 32768#16]).withInput (.infinite [] 3 7))).readReg 0 =
      (Config.endlessInput 3 7).setWidth 16 := ⟨rfl, rfl⟩
theorem test_in_waits : after (codeState 0#16 [20#16, 32768#16]) = codeState 0#16 [20#16, 32768#16] ∧
    faultsWith ((codeState 0#16 [20#16, 5#16]).withInput (.finite [104#8])) .invalidDestination 0#16 := by decide
-- Y11 with the step after it (Y15)
theorem test_noop_at_the_top : (after (codeState 32767#16 [21#16])).pc = 32768#16 ∧
    faultsWith (after (codeState 32767#16 [21#16])) .outOfRangeAddress 32768#16 := by decide
-- Y14, Y16, Y17, Y18, Y19
theorem test_fault_priority :
    faultsWith (codeState 0#16 [32768#16]) .unknownOpcode 0#16 ∧
    faultsWith (codeState 32766#16 [4#16, 5#16]) .outOfRangeAddress 32766#16 ∧
    faultsWith (codeState 32767#16 [22#16]) .unknownOpcode 32767#16 ∧
    faultsWith (codeState 0#16 [11#16, 0#16, 32776#16, 0#16]) .invalidDestination 0#16 ∧
    faultsWith (codeState 0#16 [11#16, 32768#16, 32776#16, 0#16]) .invalidOperand 0#16 := by decide

/-- 70_reset_and_hazards.md R190: a loaded image lies from address 0 upward, and only what differs from the fill value
is listed. -/
theorem test_start : (State.start Config.standard [21#16, 0#16, 5#16] (.finite [104#8])).map (·.mem) =
    some [(0, 21#16), (2, 5#16)] := by decide

/-- 30_encoding.md R71: one Word of each class, and both ends of the printable class. -/
theorem test_display : displayClass 21#16 = .mnemonic "noop" ∧ displayClass 22#16 = .printableCharacter 22#16 ∧
    displayClass 127#16 = .printableCharacter 127#16 ∧ displayClass 128#16 = .genericLiteral 128#16 ∧
    displayClass 32775#16 = .registerLabel 7 ∧ displayClass 32776#16 = .genericLiteral 32776#16 := by decide

/-! ## Witnesses: for each statement with hypotheses, values that meet all of them together

Where a statement has several clauses, each is met, at the boundary of its range. A statement whose clauses range over
all states with no hypothesis needs none. -/

/-- A running state with `noop` at the pc, and the state after its step. -/
def noopState : State := codeState 0#16 [21#16]

theorem witness_EncodeOfDecodeGivesTheWords : decode [19#16, 97#16, 0#16] = .ok (.out (.literal 97#15), [0#16]) := rfl

/-- The boundaries of the three operand classes, for `OperandClassesFollowTheirRanges`,
`ResolveReadsALiteralOrARegister`, `DestNamesARegister` and the operand clauses of the exceptions. -/
theorem witness_operandRanges :
    (0#16).toNat ≤ 32767 ∧ (32767#16).toNat ≤ 32767 ∧ 32768 ≤ (32768#16).toNat ∧ (32768#16).toNat ≤ 32775 ∧
    32768 ≤ (32775#16).toNat ∧ (32775#16).toNat ≤ 32775 ∧ 32776 ≤ (32776#16).toNat ∧ 32776 ≤ (65535#16).toNat ∧
    (32768#16).toNat = 32768 + (0 : RegIndex).val ∧ (32775#16).toNat = 32768 + (7 : RegIndex).val := by decide

theorem witness_OpcodeWordIsComparedWhole : (0#16).toNat ≤ 21 ∧ (21#16).toNat ≤ 21 ∧ 22 ≤ (22#16).toNat ∧
    22 ≤ (65535#16).toNat := by decide

/-- An untaken `jt` whose target is no operand. -/
theorem witness_FirstBadOperandEndsTheStep :
    (codeState 0#16 [7#16, 0#16, 32776#16]).run = .running ∧
    (codeState 0#16 [7#16, 0#16, 32776#16]).fetch = .ok (.jt (.literal 0#15) (.invalid 0)) ∧
    firstOperandFault (.jt (.literal 0#15) (.invalid 0)) = some .invalidOperand := ⟨rfl, rfl, rfl⟩

/-- The boundary of the address decoder, for `MemReadChecksTheAddress`, `MemWriteChangesOneCell`, `RmemReadsACell` and
`WmemWritesACell`. -/
theorem witness_addressRanges : (32767#16).toNat ≤ 32767 ∧ 32767 < (32768#16).toNat := by decide

/-- A state that meets every invariant and takes a step, for the four invariants. -/
theorem witness_invariants : noopState.mem.wf noopState.cfg.memFill = true ∧ noopState.run ≠ .faulted ∧
    noopState.faultKind = none ∧ noopState.faultPc = 0#16 ∧ noopState.cfg.stackDepth = none ∧
    (∀ r, canonical (noopState.readReg r)) ∧ noopState.stack = [] ∧
    step noopState = .next (noopState.advance 1) := ⟨by decide, by decide, rfl, rfl, rfl, by decide, rfl, rfl⟩

theorem witness_EveryStepKeepsMemoryCanonical : noopState.memoryWf ∧ step noopState = .next (noopState.advance 1) :=
  ⟨rfl, rfl⟩

theorem witness_EveryStepKeepsTheStatusConsistent :
    noopState.statusConsistent ∧ step noopState = .next (noopState.advance 1) := by
  refine ⟨⟨fun h => absurd h (by decide), fun _ => ⟨rfl, rfl⟩⟩, rfl⟩

/-- A Faulted state meets the status invariant too. -/
theorem witness_statusConsistent_faulted : (noopState.raise .unknownOpcode).statusConsistent :=
  ⟨fun _ => ⟨by decide, rfl⟩, fun h => absurd rfl h⟩

theorem witness_EveryStepKeepsCanonicalValues :
    noopState.canonicalValues ∧ ¬ noopState.callAtLastAddress ∧ step noopState = .next (noopState.advance 1) := by
  refine ⟨⟨by decide, by simp [noopState, codeState, State.placeWords, State.setCell, State.jumpTo, memWords, State.reset], fun a => ?_⟩,
    fun h => absurd h.1 (by decide), rfl⟩
  have h : noopState.mem = [(0, 21#16)] := rfl
  have hc : noopState.cfg.memFill = 0#16 := rfl
  simp only [State.cell, unlisted, h, hc, Memory.read]
  split <;> decide

/-- A stack bounded at one entry and holding it, and a step that pops it. -/
theorem witness_EveryStepKeepsTheStackWithinDepth :
    (bounded 1 ((codeState 0#16 [18#16]).withStack [7#16])).stackWithinDepth ∧
    step (bounded 1 ((codeState 0#16 [18#16]).withStack [7#16])) =
      .next (after (bounded 1 ((codeState 0#16 [18#16]).withStack [7#16]))) := by
  refine ⟨fun d h => ?_, rfl⟩
  have : some 1 = some d := h
  cases this
  decide

/-- `wmem 3, r0` at address 0 overwrites the next instruction with `noop`, and with an unknown opcode. -/
theorem witness_AStoredWordIsSeenByTheNextFetch :
    (codeState 0#16 [16#16, 3#16, 21#16]).run = .running ∧
    (codeState 0#16 [16#16, 3#16, 21#16]).codeAt [16#16, 3#16, 21#16] ∧
    (codeState 0#16 [16#16, 3#16, 21#16]).resolve (decodeOperand 3#16) = .ok 3#16 ∧
    (codeState 0#16 [16#16, 3#16, 21#16]).resolve (decodeOperand 21#16) = .ok 21#16 ∧ (3#16).toNat ≤ 32767 ∧
    3#16 = (codeState 0#16 [16#16, 3#16, 21#16]).pc + 3#16 ∧
    (codeState 0#16 [16#16, 3#16, 22#16]).codeAt [16#16, 3#16, 22#16] ∧
    (codeState 0#16 [16#16, 3#16, 22#16]).resolve (decodeOperand 22#16) = .ok 22#16 ∧ 22 ≤ (22#16).toNat := by decide

/-- The last place a four-Word instruction fits. -/
theorem witness_AStepRunsTheDecodedInstruction :
    (codeState 32764#16 [9#16, 32768#16, 32769#16, 4#16]).run = .running ∧
    (codeState 32764#16 [9#16, 32768#16, 32769#16, 4#16]).codeAt [9#16, 32768#16, 32769#16, 4#16] ∧
    decode [9#16, 32768#16, 32769#16, 4#16] = .ok (.add (.register 0) (.register 1) (.literal 4#15), []) :=
  ⟨rfl, by decide, rfl⟩

/-- An unknown opcode at the last address; `noop` there, whose operands all lie inside; and `add` at 32764. -/
theorem witness_DispatchSelectsByOpcode :
    (codeState 32767#16 [22#16]).run = .running ∧ (codeState 32767#16 [22#16]).pc.toNat ≤ 32767 ∧
    22 ≤ ((codeState 32767#16 [22#16]).cell 32767).toNat ∧
    ((codeState 32767#16 [21#16]).cell 32767).toNat ≤ 21 ∧
    (codeState 32767#16 [21#16]).pc.toNat + (Shape.f0 .noop).operandCount ≤ 32767 ∧
    ((codeState 32764#16 [9#16]).cell 32764).toNat ≤ 21 ∧
    (codeState 32764#16 [9#16]).pc.toNat + (Shape.f3 .add).operandCount ≤ 32767 := by decide

/-- `add` at 32765 does not fit, at 32764 it does. -/
theorem witness_OperandFetchStopsAtTheTopOfMemory :
    (codeState 32765#16 [9#16]).run = .running ∧ (codeState 32765#16 [9#16]).pc.toNat ≤ 32767 ∧
    opcodeRow ((codeState 32765#16 [9#16]).cell 32765) = some ⟨"add", .f3 .add⟩ ∧
    32767 - (Shape.f3 .add).operandCount < (codeState 32765#16 [9#16]).pc.toNat ∧
    opcodeRow ((codeState 32764#16 [9#16]).cell 32764) = some ⟨"add", .f3 .add⟩ ∧
    (codeState 32764#16 [9#16]).pc.toNat ≤ 32767 - (Shape.f3 .add).operandCount :=
  ⟨rfl, by decide, rfl, by decide, rfl, by decide⟩

theorem witness_TerminalStatesAbsorb : noopState.haltNow.run ≠ .running ∧
    (noopState.raise .unknownOpcode).run ≠ .running := by decide

theorem witness_AStepHasOneOfFourOutcomes : noopState.run = .running := rfl

/-- One state for each of the five clauses. -/
theorem witness_FaultPriorityIsThePhaseOrder :
    ((codeState 32768#16 []).run = .running ∧ 32767 < (codeState 32768#16 []).pc.toNat) ∧
    ((codeState 32767#16 [22#16]).pc.toNat ≤ 32767 ∧ 22 ≤ ((codeState 32767#16 [22#16]).cell 32767).toNat) ∧
    (opcodeRow ((codeState 32766#16 [4#16, 5#16]).cell 32766) = some ⟨"eq", .f3 .eq⟩ ∧
      32767 < (codeState 32766#16 [4#16, 5#16]).pc.toNat + (Shape.f3 .eq).operandCount) ∧
    ((codeState 0#16 [11#16, 0#16, 32776#16, 0#16]).fetch = .ok (.mod (.literal 0#15) (.invalid 0) (.literal 0#15)) ∧
      firstOperandFault (.mod (.literal 0#15) (.invalid 0) (.literal 0#15)) = some .invalidDestination) ∧
    ((codeState 0#16 [11#16, 32768#16, 7#16, 0#16]).fetch = .ok (.mod (.register 0) (.literal 7#15) (.literal 0#15)) ∧
      firstOperandFault (.mod (.register 0) (.literal 7#15) (.literal 0#15)) = none ∧
      step (codeState 0#16 [11#16, 32768#16, 7#16, 0#16]) =
        .next ((codeState 0#16 [11#16, 32768#16, 7#16, 0#16]).raise .modByZero)) :=
  ⟨⟨rfl, by decide⟩, ⟨by decide, by decide⟩, ⟨rfl, by decide⟩, ⟨rfl, rfl⟩, ⟨rfl, rfl, rfl⟩⟩

/-- A step that faults in the fetch, and one that faults when it executes. -/
theorem witness_EachInstructionRaisesItsOwnFaults :
    ((codeState 0#16 [22#16]).run = .running ∧ (codeState 0#16 [22#16]).fetch = .error .unknownOpcode ∧
      step (codeState 0#16 [22#16]) = .next ((codeState 0#16 [22#16]).raise .unknownOpcode)) ∧
    ((codeState 4#16 [3#16, 32770#16]).fetch = .ok (.pop (.register 2)) ∧
      step (codeState 4#16 [3#16, 32770#16]) = .next ((codeState 4#16 [3#16, 32770#16]).raise .stackUnderflow)) :=
  ⟨⟨rfl, rfl, rfl⟩, rfl, rfl⟩

theorem witness_AFaultingStepChangesOnlyTheStatus : (codeState 4#16 [3#16, 32770#16]).run = .running ∧
    step (codeState 4#16 [3#16, 32770#16]) = .next ((codeState 4#16 [3#16, 32770#16]).raise .stackUnderflow) ∧
    ((codeState 4#16 [3#16, 32770#16]).raise .stackUnderflow).run = .faulted := ⟨rfl, rfl, rfl⟩

theorem witness_FaultKindsHaveTheirCodes : noopState.faultKind = none := rfl

/-- A Halted state whose status registers agreed before its step, and a step that answers it. -/
theorem witness_halted_terminal : (codeState 6#16 [0#16]).statusConsistent ∧
    step (codeState 6#16 [0#16]).haltNow = .next (codeState 6#16 [0#16]).haltNow :=
  ⟨⟨fun h => absurd h (by decide), fun _ => ⟨rfl, rfl⟩⟩, rfl⟩

/-- Both ways to halt, and a step that does not. -/
theorem witness_HaltedIsReachedInTwoWays :
    ((codeState 6#16 [0#16]).run = .running ∧ step (codeState 6#16 [0#16]) = .next (codeState 6#16 [0#16]).haltNow) ∧
    ((codeState 16#16 [18#16]).stack = [] ∧ step (codeState 16#16 [18#16]) = .next (codeState 16#16 [18#16]).haltNow) ∧
    step noopState = .next (noopState.advance 1) := ⟨⟨rfl, rfl⟩, ⟨rfl, rfl⟩, rfl⟩

theorem witness_ResetGivesTheTableOfValues : [21#16, 0#16].length ≤ 32768 ∧ 0 < [21#16, 0#16].length ∧
    [21#16, 0#16].length ≤ 2 ∧ 2 ≤ 32767 := by decide

theorem witness_LoadingMeetsTheInvariants : 32768 < (List.replicate 32769 0#16).length ∧
    ∃ s, State.start Config.standard [] (.finite []) = some s := ⟨by rw [List.length_replicate]; decide, _, rfl⟩

theorem witness_ImageBytesAreLittleEndian : [0x13#8].length % 2 = 1 ∧ [0x13#8, 0x00#8].length % 2 = 0 := by decide

/-- An instruction with a destination, and one of the ten without: both complete. -/
theorem witness_OnlyTheDestinationRegisterChanges :
    (exec (.set (.register 0) (.literal 5#15)) noopState = .next ((noopState.writeReg 0 5#16).advance 3) ∧
      (Role.dest, Operand.register 1) ∉ (Instr.set (.register 0) (.literal 5#15)).operands) ∧
    (exec .noop noopState = .next (noopState.advance 1) ∧
      Instr.noop.opcode.toNat ∈ [0, 2, 6, 7, 8, 16, 17, 18, 19, 21]) := ⟨⟨rfl, by decide⟩, rfl, by decide⟩

/-- No `wmem`; a `wmem` whose address is the last one; a `wmem` with no address. -/
theorem witness_OnlyTheStoredCellChanges :
    (exec .noop noopState = .next (noopState.advance 1) ∧ ∀ a b, Instr.noop ≠ .wmem a b) ∧
    (exec (.wmem (.literal 32767#15) (.literal 9#15)) noopState = .next ((noopState.setCell 32767 9#16).advance 3) ∧
      noopState.resolve (.literal 32767#15) = .ok 32767#16 ∧ 0 ≠ (32767#16).toNat) ∧
    (exec (.wmem (.invalid 0) (.literal 9#15)) noopState = .next (noopState.raise .invalidOperand) ∧
      noopState.resolve (.invalid 0) = .error .invalidOperand) :=
  ⟨⟨rfl, fun _ _ h => by cases h⟩, ⟨rfl, rfl, by decide⟩, rfl, rfl⟩

theorem witness_OnlyStackInstructionsChangeTheStack :
    exec (.push (.literal 7#15)) noopState = .next ((noopState.withStack [7#16]).advance 2) := rfl

theorem witness_StreamsParametersAndStatusChangeOnlyAsListed :
    exec (.out (.literal 97#15)) noopState = .next ((noopState.outChar 97#16).advance 2) := rfl

theorem witness_PopsReturnPushesInReverseOrder : noopState.cfg.stackDepth = none ∧
    (noopState.withStack [1#16, 2#16, 3#16]).stack = [1#16] ++ [2#16, 3#16] ∧ [2#16, 3#16] = 2#16 :: [3#16] ∧
    (1 : RegIndex) ≠ 0 := by decide

/-- With an unbounded stack, with a bounded one that has room, and a state that has the stack `call 6` left. -/
theorem witness_RetReturnsToTheInstructionAfterTheCall :
    noopState.resolve (.literal 6#15) = .ok 6#16 ∧ (∀ d, noopState.cfg.stackDepth = some d → noopState.stack.length < d) ∧
    (∀ d, (bounded 1 noopState).cfg.stackDepth = some d → (bounded 1 noopState).stack.length < d) ∧
    exec (.call (.literal 6#15)) noopState = .next ((noopState.withStack [2#16]).jumpTo 6#16) ∧
    (State.reset.withStack [2#16]).stack = ((noopState.withStack [2#16]).jumpTo 6#16).stack := by
  refine ⟨rfl, fun d h => ?_, fun d h => ?_, rfl, rfl⟩
  · exact absurd h (by decide +revert)
  · have : some 1 = some d := h
    cases this
    decide

/-- The ends of the display ranges. -/
theorem witness_DisplayClassesFollowTheirRanges : (21#16).toNat ≤ 21 ∧ opcodeRow 21#16 = some ⟨"noop", .f0 .noop⟩ ∧
    22 ≤ (22#16).toNat ∧ (127#16).toNat ≤ 127 ∧ (32775#16).toNat = 32768 + (7 : RegIndex).val ∧
    128 ≤ (128#16).toNat ∧ (32767#16).toNat ≤ 32767 ∧ 32776 ≤ (32776#16).toNat :=
  ⟨by decide, rfl, by decide, by decide, by decide, by decide, by decide, by decide⟩

theorem witness_OnlyInputThroughInReachesTheCore : (∀ a, noopState.fetch ≠ .ok (.inp a)) ∧
    step noopState = .next (noopState.advance 1) := by
  refine ⟨fun a h => ?_, rfl⟩
  have h' : (Except.ok Instr.noop : Except FaultKind Instr) = .ok (.inp a) := h
  simp at h'

/-- Two inputs, finite and infinite, with the same first two characters, and a sequence given as an argument that
begins with them. -/
theorem witness_inputPrefix :
    (∀ k < 2, (InputSeq.infinite [104#8, 105#8] 0 0).char? k = (InputSeq.finite [104#8, 105#8]).char? k) ∧
    ∀ k < 2, (InputSeq.finite [104#8, 105#8]).char? k = some (BitVec.ofNat 8 (104 + k)) := by
  refine ⟨fun k h => ?_, fun k h => ?_⟩ <;> (have : k = 0 ∨ k = 1 := by omega) <;> rcases this with rfl | rfl <;> rfl

theorem witness_AWaitingInWakesOnACharacter : (codeState 0#16 [20#16, 32768#16]).run = .running ∧
    (codeState 0#16 [20#16, 32768#16]).fetch = .ok (.inp (.register 0)) ∧
    (codeState 0#16 [20#16, 32768#16]).input = .finite [] := ⟨rfl, rfl, rfl⟩

/-! ### The instruction rules -/

/-- Operands that resolve, to small values and to a value above 32767: the hypotheses of the effect clauses of `set`,
`eq`, `gt`, `add`, `mult`, `and`, `or`, `not`, `jmp`, `jt`, `jf`, `out`, and of both clauses of `mod`, `rmem` and
`wmem`. -/
theorem witness_resolvedOperands :
    (noopState.writeReg 1 40000#16).resolve (.register 1) = .ok 40000#16 ∧
    noopState.resolve (.literal 32767#15) = .ok 32767#16 ∧ noopState.resolve (.literal 0#15) = .ok 0#16 ∧
    (32767#16).toNat ≠ 0 ∧ (0#16).toNat = 0 ∧ (32767#16).toNat ≤ 32767 ∧ 32767 < (40000#16).toNat := by decide

/-- A stack with room, bounded and unbounded, and a full one, for `push` and `call`. -/
theorem witness_stackRoom :
    (∀ d, noopState.cfg.stackDepth = some d → noopState.stack.length < d) ∧
    (∀ d, (bounded 1 noopState).cfg.stackDepth = some d → (bounded 1 noopState).stack.length < d) ∧
    (bounded 1 (noopState.withStack [9#16])).cfg.stackDepth =
      some (bounded 1 (noopState.withStack [9#16])).stack.length := by
  refine ⟨fun d h => ?_, fun d h => ?_, rfl⟩
  · exact absurd h (by decide +revert)
  · have : some 1 = some d := h
    cases this
    decide

/-- A stack with a top entry and an empty one, for `pop` and `ret`. -/
theorem witness_stackTop : (noopState.withStack [5#16, 9#16]).stack = [5#16] ++ [9#16] ∧ noopState.stack = [] ∧
    (noopState.withStack [5#16, 32768#16]).stack = [5#16] ++ [32768#16] ∧ 32767 < (32768#16).toNat ∧
    (noopState.withStack [5#16, 32768#16]).run = .running := by decide

/-- A character to take, of a finite input and of an infinite one (with and without known characters at its
beginning), and none, for `in`. -/
theorem witness_inputCharacter :
    (noopState.withInput (.finite [104#8, 105#8])).input = .finite (104#8 :: [105#8]) ∧
    (noopState.withInput (.infinite [104#8] 0 0)).input.char? 0 = some 104#8 ∧
    (noopState.withInput (.infinite [] 0 0)).input.char? 0 = some (Config.endlessInput 0 0) ∧
    noopState.input = .finite [] := ⟨rfl, rfl, rfl, rfl⟩

/-- `noop` at the last address. -/
theorem witness_NoopOnlyAdvancesThePc : (codeState 32767#16 [21#16]).run = .running ∧
    (codeState 32767#16 [21#16]).pc.toNat = 32767 ∧ (codeState 32767#16 [21#16]).cell 32767 = 21#16 := by decide

/-- The operand fetch clause of the exceptions, at both ends of its range: for `add` (three operands), `jt` (two), `set`
(two) and `push` and `pop` (one). The other opcodes differ from these in the opcode Word alone. -/
theorem witness_operandFetch_three :
    ((codeState 32765#16 [9#16]).run = .running ∧ (codeState 32765#16 [9#16]).cell 32765 = 9#16 ∧
      (codeState 32765#16 [9#16]).pc.toNat = 32765) ∧
    ((codeState 32767#16 [9#16]).cell 32767 = 9#16 ∧ (codeState 32767#16 [9#16]).pc.toNat = 32767) :=
  ⟨⟨rfl, rfl, rfl⟩, rfl, rfl⟩

theorem witness_operandFetch_two :
    ((codeState 32766#16 [1#16]).run = .running ∧ (codeState 32766#16 [1#16]).cell 32766 = 1#16 ∧
      (codeState 32766#16 [1#16]).pc.toNat = 32766) ∧
    ((codeState 32767#16 [7#16]).cell 32767 = 7#16 ∧ (codeState 32767#16 [7#16]).pc.toNat = 32767) :=
  ⟨⟨rfl, rfl, rfl⟩, rfl, rfl⟩

theorem witness_operandFetch_one :
    ((codeState 32767#16 [2#16]).run = .running ∧ (codeState 32767#16 [2#16]).cell 32767 = 2#16 ∧
      (codeState 32767#16 [2#16]).pc.toNat = 32767) ∧ (codeState 32767#16 [3#16]).cell 32767 = 3#16 :=
  ⟨⟨rfl, rfl, rfl⟩, rfl⟩

end Sys2Proof.Tests
end

section
namespace Sys2Proof

/-! ## An image file's bytes as Words (20_memory.md R49)

`wordsOfBytes` is a partial function; the facts below say when it answers, and what each Word of the answer is. -/

/-- The value of the Word of two bytes: the low byte comes first (20_memory.md R44, R49). -/
@[simp] theorem toNat_wordOfBytes (lo hi : Byte) :
    (wordOfBytes lo hi).toNat = lo.toNat + 256 * hi.toNat := by
  have hlo : lo.toNat < 2 ^ 8 := lo.isLt
  calc (wordOfBytes lo hi).toNat
      = hi.toNat <<< 8 ||| lo.toNat := BitVec.toNat_append hi lo
    _ = hi.toNat <<< 8 + lo.toNat := (Nat.shiftLeft_add_eq_or_of_lt hlo hi.toNat).symm
    _ = lo.toNat + 256 * hi.toNat := by rw [Nat.shiftLeft_eq]; omega

/-- What an answer for two bytes and more consists of: the first Word, and the Words of the bytes after them. -/
theorem wordsOfBytes_cons_cons_eq_some {lo hi : Byte} {bs : List Byte} {ws : List Word} :
    wordsOfBytes (lo :: hi :: bs) = some ws ↔
      ∃ rest, wordsOfBytes bs = some rest ∧ wordOfBytes lo hi :: rest = ws := by
  simp [wordsOfBytes]

/-- A list of Words is had from twice as many bytes. -/
theorem length_of_wordsOfBytes_eq_some {bs : List Byte} {ws : List Word}
    (h : wordsOfBytes bs = some ws) : bs.length = 2 * ws.length := by
  induction bs using wordsOfBytes.induct generalizing ws with
  | case1 => cases h; rfl
  | case2 b => cases h
  | case3 lo hi bs ih =>
    obtain ⟨rest, hrest, rfl⟩ := wordsOfBytes_cons_cons_eq_some.mp h
    have := ih hrest
    simp only [List.length_cons]
    omega

theorem exists_wordsOfBytes_eq_some {bs : List Byte} (h : bs.length % 2 = 0) :
    ∃ ws, wordsOfBytes bs = some ws := by
  induction bs using wordsOfBytes.induct with
  | case1 => exact ⟨[], rfl⟩
  | case2 b => simp at h
  | case3 lo hi bs ih =>
    obtain ⟨rest, hrest⟩ := ih (by simp only [List.length_cons] at h; omega)
    exact ⟨_, wordsOfBytes_cons_cons_eq_some.mpr ⟨rest, hrest, rfl⟩⟩

/-- An odd number of bytes is no list of Words (20_memory.md R49, 92_eei_decisions.md D4). -/
theorem wordsOfBytes_eq_none_of_odd {bs : List Byte} (h : bs.length % 2 = 1) :
    wordsOfBytes bs = none := by
  refine Option.eq_none_iff_forall_ne_some.mpr fun ws hws => ?_
  have := length_of_wordsOfBytes_eq_some hws
  omega

/-- Word `i` is made of the bytes at `2 * i` and `2 * i + 1`; beyond the end both sides are 0. -/
theorem getD_of_wordsOfBytes_eq_some {bs : List Byte} {ws : List Word}
    (h : wordsOfBytes bs = some ws) (i : Nat) :
    ws.getD i 0#16 = wordOfBytes (bs.getD (2 * i) 0#8) (bs.getD (2 * i + 1) 0#8) := by
  induction bs using wordsOfBytes.induct generalizing ws i with
  | case1 =>
    cases h
    simp only [List.getD_nil]
    rfl
  | case2 b => cases h
  | case3 lo hi bs ih =>
    obtain ⟨rest, hrest, rfl⟩ := wordsOfBytes_cons_cons_eq_some.mp h
    cases i with
    | zero => rfl
    | succ i => exact ih hrest i

/-- Settles O27: the length and the Words of an answer, each by induction on the bytes taken two at a time. -/
theorem imageBytesAreLittleEndian : Obligations.ImageBytesAreLittleEndian := by
  intro bs
  refine ⟨wordsOfBytes_eq_none_of_odd, fun heven => ?_⟩
  obtain ⟨ws, hws⟩ := exists_wordsOfBytes_eq_some heven
  have hlen := length_of_wordsOfBytes_eq_some hws
  refine ⟨ws, hws, by omega, fun i _ => ?_⟩
  rw [getD_of_wordsOfBytes_eq_some hws i, toNat_wordOfBytes]

end Sys2Proof
end

section
namespace Sys2Proof.Machine

/-! ## The display class of a Word (30_encoding.md R71)

One rule for each range of values. The opcode table is consulted first; above 21 it has no row, and the operand class
of the Word (30_encoding.md R63) decides. -/

section
variable {w : Word}

theorem displayClass_of_row {row : OpRow} (h : opcodeRow w = some row) :
    displayClass w = .mnemonic row.mnemonic := by
  rw [displayClass, h]

theorem displayClass_of_printable (h : 22 ≤ w.toNat) (h' : w.toNat < 128) :
    displayClass w = .printableCharacter w := by
  simp only [displayClass, opcodeRow_eq_none.2 h, decodeOperand_of_lt (w := w) (by omega), if_pos h']

theorem displayClass_of_large_literal (h : 128 ≤ w.toNat) (h' : w.toNat < 32768) :
    displayClass w = .genericLiteral w := by
  have hnone : opcodeRow w = none := opcodeRow_eq_none.2 (by omega)
  simp only [displayClass, hnone, decodeOperand_of_lt h', if_neg (Nat.not_lt.2 h)]

theorem displayClass_of_register {r : RegIndex} (h : w.toNat = 32768 + r.val) :
    displayClass w = .registerLabel r := by
  have hnone : opcodeRow w = none := opcodeRow_eq_none.2 (by omega)
  have hreg : decodeOperand w = .register r := by
    rw [decodeOperand_of_register (by omega) (by omega)]
    exact congrArg Operand.register (Fin.ext (by simp only [h]; omega))
  simp only [displayClass, hnone, hreg]

theorem displayClass_of_invalid (h : 32776 ≤ w.toNat) : displayClass w = .genericLiteral w := by
  have hnone : opcodeRow w = none := opcodeRow_eq_none.2 (by omega)
  simp only [displayClass, hnone, decodeOperand_of_ge h]

end

/-- Settles O36, one rule for each range. -/
theorem displayClassesFollowTheirRanges : Obligations.DisplayClassesFollowTheirRanges := by
  intro w
  refine ⟨fun row _ => displayClass_of_row, fun h => opcodeRow_of_lt (by omega),
    fun h h' => displayClass_of_printable h (by omega), fun r => displayClass_of_register, fun h hrange => ?_⟩
  rcases hrange with h' | h'
  · exact displayClass_of_large_literal h (by omega)
  · exact displayClass_of_invalid h'

end Sys2Proof.Machine
end

section
namespace Sys2Proof

/-! ## An operand Word by its value (30_encoding.md R63) -/

theorem decodeOperand_of_eq_register {w : Word} {r : RegIndex} (h : w.toNat = 32768 + r.val) :
    decodeOperand w = .register r := by
  rw [decodeOperand_of_register (by omega) (by omega)]
  exact congrArg Operand.register (Fin.ext (by simp only [h]; omega))

/-! ## The Words of a fetched instruction (30_encoding.md R60, R61, R65)

The opcode map is the table read from opcode to instruction, `Instr.opcode` the same table read the other way. They
agree in every row, so what a row's format makes of some Words is encoded as these Words again. -/

/-- Every instruction of this format is encoded as the opcode Word `op` and then its operands' Words. -/
def Shape.EncodesAs (op : Word) : Shape → Prop
  | .f0 i => encode i = [op]
  | .f1 mk => ∀ a, encode (mk a) = [op, encodeOperand a]
  | .f2 mk => ∀ a b, encode (mk a b) = [op, encodeOperand a, encodeOperand b]
  | .f3 mk => ∀ a b c, encode (mk a b c) = [op, encodeOperand a, encodeOperand b, encodeOperand c]

/-- Row `n` of the opcode map makes instructions of opcode `n`: the 22 rows, one by one. -/
theorem opcodeTable_encodesAs {n : Nat} (hn : n < opcodeTable.length) :
    opcodeTable[n].shape.EncodesAs (BitVec.ofNat 16 n) := by
  rw [opcodeTable_length] at hn
  interval_cases n <;> simp [opcodeTable, Shape.EncodesAs, encode, Instr.opcode, Instr.operands]

theorem encodesAs_of_opcodeRow {op : Word} {row : OpRow} (h : opcodeRow op = some row) :
    row.shape.EncodesAs op := by
  obtain ⟨hlt, rfl⟩ := List.getElem?_eq_some_iff.1 h
  simpa using opcodeTable_encodesAs hlt

/-- What a format makes of as many Words as it has operands is encoded as its opcode Word and these Words. -/
theorem build_of_encodesAs {op : Word} {sh : Shape} {ws : List Word} (h : sh.EncodesAs op)
    (hlen : ws.length = sh.operandCount) : ∃ i, sh.build ws = .ok (i, []) ∧ encode i = op :: ws := by
  cases sh with
  | f0 i =>
    obtain rfl := List.length_eq_zero_iff.1 hlen
    exact ⟨i, rfl, h⟩
  | f1 mk =>
    obtain ⟨a, rfl⟩ := List.length_eq_one_iff.1 hlen
    exact ⟨_, rfl, by simp [h (decodeOperand a)]⟩
  | f2 mk =>
    obtain ⟨a, b, rfl⟩ := List.length_eq_two.1 hlen
    exact ⟨_, rfl, by simp [h (decodeOperand a) (decodeOperand b)]⟩
  | f3 mk =>
    obtain ⟨a, b, c, rfl⟩ := List.length_eq_three.1 hlen
    exact ⟨_, rfl, by simp [h (decodeOperand a) (decodeOperand b) (decodeOperand c)]⟩

theorem Shape.operandCount_le_three (sh : Shape) : sh.operandCount ≤ 3 := by
  cases sh <;> simp [Shape.operandCount]

end Sys2Proof
end

section
namespace Sys2Proof.Machine

/-! ## Resolution of an operand Word (40_execution_cycle.md R84 to R86) -/

/-- Resolve, on a literal, is the Word of the literal. -/
theorem resolve_decodeOperand_of_lt (s : State) {w : Word} (h : w.toNat < 32768) :
    s.resolve (decodeOperand w) = .ok w := by
  have hw : encodeOperand (decodeOperand w) = w := encodeOperand_decodeOperand w
  rw [decodeOperand_of_lt h] at hw ⊢
  exact congrArg Except.ok hw

/-- Settles O6, one class of operand Words at a time. -/
theorem resolveReadsALiteralOrARegister : Obligations.ResolveReadsALiteralOrARegister := by
  intro s w
  refine ⟨fun h => resolve_decodeOperand_of_lt s (by omega), fun r h => ?_, fun h => ?_⟩
  · rw [decodeOperand_of_eq_register h]
    exact ⟨rfl, fun v => by simp⟩
  · rw [decodeOperand_of_ge h, resolve_invalid]

/-- Settles O7, one class of operand Words at a time. -/
theorem destNamesARegister : Obligations.DestNamesARegister := by
  intro w
  refine ⟨fun h => ?_, fun r h => ?_, fun h => ?_⟩
  · rw [decodeOperand_of_lt (by omega), destReg_literal]
  · rw [decodeOperand_of_eq_register h, destReg_register]
  · rw [decodeOperand_of_ge h, destReg_invalid]

/-- Settles O8: a running core executes what it fetched, and an execution takes the first bad operand's fault. -/
theorem firstBadOperandEndsTheStep : Obligations.FirstBadOperandEndsTheStep := by
  intro s i k hrun hfetch hbad
  exact (step_of_fetch hrun hfetch).trans (exec_of_badOperand hbad)

/-! ## Dispatch and operand fetch (40_execution_cycle.md R82, R83) -/

/-- Where the operand Words lie inside the memory, the fetch succeeds, and the Words of the fetched instruction are the
Words at the pc. -/
theorem exists_fetch_of_fits {s : State} {row : OpRow} (hrow : opcodeRow (s.cell s.pc.toNat) = some row)
    (hfits : s.pc.toNat + row.shape.operandCount ≤ 32767) :
    ∃ i, s.fetch = .ok i ∧ encode i = s.cells s.pc.toNat (1 + row.shape.operandCount) := by
  obtain ⟨i, hbuild, hwords⟩ := build_of_encodesAs (encodesAs_of_opcodeRow hrow)
    (cells_length s (s.pc.toNat + 1) row.shape.operandCount)
  exact ⟨i, fetch_of_le hrow (by omega) hbuild, by rw [hwords, Nat.add_comm 1, cells_succ]⟩

/-- Settles O14: an unknown opcode ends the fetch at its second phase, and an instruction whose Words begin with
the opcode Word has that opcode and as many operands as Words follow. -/
theorem dispatchSelectsByOpcode : Obligations.DispatchSelectsByOpcode := by
  intro s hrun hpc
  refine ⟨fun h => ?_, fun h => ?_⟩
  · exact step_of_fetch_error hrun (fetch_of_unknown (by omega) (opcodeRow_eq_none.2 h))
  · obtain ⟨row, hrow⟩ := opcodeRow_of_lt (by omega : (s.cell s.pc.toNat).toNat < 22)
    refine ⟨row, hrow, fun hfits => ?_⟩
    obtain ⟨i, hfetch, hwords⟩ := exists_fetch_of_fits hrow hfits
    rw [Nat.add_comm 1, cells_succ, encode, List.cons.injEq] at hwords
    obtain ⟨hopcode, hoperands⟩ := hwords
    exact ⟨i, hopcode, by simpa using congrArg List.length hoperands, step_of_fetch hrun hfetch⟩

/-- Settles O15: the operand fetch fails where the last operand Word lies above 32767, and nowhere else. -/
theorem operandFetchStopsAtTheTopOfMemory : Obligations.OperandFetchStopsAtTheTopOfMemory := by
  intro s row hrun hpc hrow
  have hcount := row.shape.operandCount_le_three
  refine ⟨fun h => ?_, fun h => exists_fetch_of_fits hrow (by omega)⟩
  exact step_of_fetch_error hrun (fetch_of_operand_gt (by omega) hrow (by omega))

/-! ## The outcomes of a step (40_execution_cycle.md R88, R92) -/

variable {s t : State}

/-- An executed instruction keeps `RUN`, or halts as `halt` and `ret` do, or takes a fault. -/
theorem effect_run {i : Instr} (h : Effect s i t) :
    t.run = s.run ∨ (t.run = .halted ∧ (i = .halt ∨ i = .ret ∧ s.stack = [])) ∨ ∃ k, t = s.raise k := by
  cases h with
  | raised i k _ => exact .inr (.inr ⟨k, rfl⟩)
  | halted => exact .inr (.inl ⟨rfl, .inl rfl⟩)
  | retHalted hempty => exact .inr (.inl ⟨rfl, .inr ⟨rfl, hempty⟩⟩)
  | _ => exact .inl rfl

/-- Where the step of a running core leads: it runs on, it halts, or it takes a fault. -/
theorem step_run_cases (hrun : s.run = .running) (h : step s = .next t) :
    t.run = .running ∨ (t.run = .halted ∧ (s.fetch = .ok .halt ∨ s.fetch = .ok .ret ∧ s.stack = [])) ∨
      ∃ k, t = s.raise k := by
  rcases step_cases h with ⟨hterminal, -⟩ | ⟨-, k, -, ht⟩ | ⟨-, i, hfetch, -, heffect⟩
  · exact absurd hrun hterminal
  · exact .inr (.inr ⟨k, ht⟩)
  · rcases effect_run heffect with hkept | ⟨hhalted, rfl | ⟨rfl, hempty⟩⟩ | hraised
    · exact .inl (hkept.trans hrun)
    · exact .inr (.inl ⟨hhalted, .inl hfetch⟩)
    · exact .inr (.inl ⟨hhalted, .inr ⟨hfetch, hempty⟩⟩)
    · exact .inr (.inr hraised)

theorem step_of_waiting (h : s.waiting) : step s = .next s := by
  obtain ⟨hrun, hinput, d, hfetch⟩ := h
  exact (step_of_fetch hrun hfetch).trans (exec_inp_of_empty hinput)

/-- Settles O17: a waiting core stays as it is, and any other takes one of the three ways of `step_run_cases`. -/
theorem aStepHasOneOfFourOutcomes : Obligations.AStepHasOneOfFourOutcomes := by
  intro s hrun
  by_cases hwaiting : s.waiting
  · exact ⟨s, step_of_waiting hwaiting, .inr (.inr (.inr ⟨hwaiting, rfl⟩))⟩
  · obtain ⟨t, hstep⟩ := step_next s
    refine ⟨t, hstep, ?_⟩
    rcases step_run_cases hrun hstep with hrunning | ⟨hhalted, hinstr⟩ | ⟨k, rfl⟩
    · exact .inl ⟨hrunning, hwaiting⟩
    · exact .inr (.inl ⟨hhalted, hwaiting, hinstr⟩)
    · exact .inr (.inr (.inl ⟨rfl, hwaiting, k, rfl⟩))

/-- Settles O20: a step ends in Faulted by fault entry alone, which writes the three status registers only. -/
theorem aFaultingStepChangesOnlyTheStatus : Obligations.AFaultingStepChangesOnlyTheStatus := by
  intro s t hrun hstep hfaulted
  rcases step_run_cases hrun hstep with hrunning | ⟨hhalted, -⟩ | ⟨k, ht⟩
  · simp [hrunning] at hfaulted
  · simp [hhalted] at hfaulted
  · exact ⟨k, ht⟩

end Sys2Proof.Machine
end

section
namespace Sys2Proof.Machine

/-! ## The `Exceptions` paragraph of an instruction rule (60_exceptions.md R162, R163, R165)

An operand Word raises a fault by its value and its role alone, and the operand fetch fails by the opcode and its address
alone. So the paragraph of a rule follows from the opcode's row of the map and from the roles of the operands. -/

section
variable {w : Word}

theorem operandFault_dest_of_literal (h : w.toNat ≤ 32767) :
    operandFault (.dest, decodeOperand w) = some .invalidDestination := by
  rw [decodeOperand_of_lt (by omega), operandFault]

theorem operandFault_dest_of_register (h : 32768 ≤ w.toNat) (h' : w.toNat ≤ 32775) :
    operandFault (.dest, decodeOperand w) = none := by
  rw [decodeOperand_of_register h (by omega), operandFault]

theorem operandFault_of_invalid (r : Role) (h : 32776 ≤ w.toNat) :
    operandFault (r, decodeOperand w) = some .invalidOperand := by
  rw [decodeOperand_of_ge h]
  cases r <;> rfl

end

section
variable {s : State} {i : Instr} {k : FaultKind} {x y : Role × Operand} {rest : List (Role × Operand)}

theorem exec_of_badFirstOperand (hi : i.operands = x :: rest) (hx : operandFault x = some k) :
    exec i s = .next (s.raise k) :=
  exec_of_badOperand (by rw [firstOperandFault, hi, List.findSome?_cons, hx])

theorem exec_of_badSecondOperand (hi : i.operands = x :: y :: rest) (hx : operandFault x = none)
    (hy : operandFault y = some k) : exec i s = .next (s.raise k) :=
  exec_of_badOperand (by rw [firstOperandFault, hi, List.findSome?_cons, hx, List.findSome?_cons, hy])

/-- The operand fetch fails where the last operand Word of the opcode would lie above 32767
(40_execution_cycle.md R83). -/
theorem step_of_operandFetch_gt {op : Word} {row : OpRow} (hrow : opcodeRow op = some row) (hrun : s.run = .running)
    (hop : s.cell s.pc.toNat = op) (hgt : 32767 - row.shape.operandCount < s.pc.toNat) (hle : s.pc.toNat ≤ 32767) :
    step s = .next (s.raise .outOfRangeAddress) :=
  (operandFetchStopsAtTheTopOfMemory s row hrun hle (hop ▸ hrow)).1 hgt

end

section
variable {op : Word} {name : String}

theorem exceptionsDS {mk : Operand → Operand → Instr} (hrow : opcodeRow op = some ⟨name, .f2 mk⟩)
    (hroles : ∀ a b, (mk a b).operands = [(.dest, a), (.source, b)]) : ExceptionsDS op mk := by
  intro s a b
  refine ⟨fun ha => ?_, fun ha => ?_, fun ha ha' hb => ?_, fun hrun hop hgt hle => ?_⟩
  · exact exec_of_badFirstOperand (hroles _ _) (operandFault_dest_of_literal ha)
  · exact exec_of_badFirstOperand (hroles _ _) (operandFault_of_invalid _ ha)
  · exact exec_of_badSecondOperand (hroles _ _) (operandFault_dest_of_register ha ha') (operandFault_of_invalid _ hb)
  · exact step_of_operandFetch_gt hrow hrun hop hgt hle

theorem exceptionsD {mk : Operand → Instr} (hrow : opcodeRow op = some ⟨name, .f1 mk⟩)
    (hroles : ∀ a, (mk a).operands = [(.dest, a)]) : ExceptionsD op mk := by
  intro s a
  refine ⟨fun ha => ?_, fun ha => ?_, fun hrun hop hpc => ?_⟩
  · exact exec_of_badFirstOperand (hroles _) (operandFault_dest_of_literal ha)
  · exact exec_of_badFirstOperand (hroles _) (operandFault_of_invalid _ ha)
  · exact step_of_operandFetch_gt hrow hrun hop (by simp [hpc, Shape.operandCount]) hpc.le

theorem exceptionsS {mk : Operand → Instr} (hrow : opcodeRow op = some ⟨name, .f1 mk⟩)
    (hroles : ∀ a, (mk a).operands = [(.source, a)]) : ExceptionsS op mk := by
  intro s a
  refine ⟨fun ha => ?_, fun hrun hop hpc => ?_⟩
  · exact exec_of_badFirstOperand (hroles _) (operandFault_of_invalid _ ha)
  · exact step_of_operandFetch_gt hrow hrun hop (by simp [hpc, Shape.operandCount]) hpc.le

end

/-! ## Data movement and stack (41_data_movement_stack.md R100 to R102) -/

section
variable {s : State}

theorem exec_set_of_resolve {d : RegIndex} {b : Operand} {vb : Word} (hb : s.resolve b = .ok vb) :
    exec (.set (.register d) b) s = .next ((s.writeReg d vb).advance 3) :=
  congrArg s.commit (writeOf1_eq_ok.2 ⟨d, vb, vb, rfl, hb, rfl, rfl⟩)

theorem exec_push_of_room {a : Operand} {va : Word} (ha : s.resolve a = .ok va) (hroom : s.stackFull = false) :
    exec (.push a) s = .next ((s.withStack (s.stack ++ [va])).advance 2) := by
  rw [exec, execPush, ha, ok_bind, pushValue_eq_ok.2 ⟨hroom, rfl⟩, ok_bind, pure_eq_ok, commit_ok]

theorem exec_push_of_full {a : Operand} {va : Word} (ha : s.resolve a = .ok va) (hfull : s.stackFull = true) :
    exec (.push a) s = .next (s.raise .stackOverflow) := by
  rw [exec, execPush, ha, ok_bind, pushValue_eq_error.2 ⟨hfull, rfl⟩, error_bind, commit_error]

theorem exec_pop_of_append {d : RegIndex} {st : List Word} {v : Word} (hstack : s.stack = st ++ [v]) :
    exec (.pop (.register d)) s = .next (((s.withStack st).writeReg d v).advance 2) := by
  rw [exec, execPop, destReg_register, ok_bind, popValue_of_append hstack]
  rfl

theorem exec_pop_of_empty {d : RegIndex} (hempty : s.stack = []) :
    exec (.pop (.register d)) s = .next (s.raise .stackUnderflow) := by
  rw [exec, execPop, destReg_register, ok_bind, popValue_eq_none.2 hempty, commit_error]

end

/-- Settles O40: the effect is `exec_set_of_resolve`, the faults are those of a destination and a source. -/
theorem setCopiesAValue : Obligations.SetCopiesAValue :=
  ⟨fun _ _ => rfl, fun _ _ _ _ hb => exec_set_of_resolve hb, exceptionsDS rfl fun _ _ => rfl⟩

/-- Settles O41, by whether the stack is full (10_state.md R29); the other faults are those of a source. -/
theorem pushAppendsAValue : Obligations.PushAppendsAValue := by
  refine ⟨fun _ => rfl, fun s a va ha => ⟨fun hroom => ?_, fun hfull => ?_⟩, exceptionsS rfl fun _ => rfl⟩
  · exact exec_push_of_room ha (stackFull_eq_false.2 hroom)
  · exact exec_push_of_full ha (stackFull_eq_true.2 ⟨_, hfull, le_rfl⟩)

/-- Settles O42, by whether the stack is empty; the other faults are those of a destination. -/
theorem popTakesTheTopEntry : Obligations.PopTakesTheTopEntry := by
  refine ⟨fun _ => rfl, fun s d => ⟨fun st v hstack => ?_, fun hempty => ?_⟩, exceptionsD rfl fun _ => rfl⟩
  · exact exec_pop_of_append hstack
  · exact exec_pop_of_empty hempty

end Sys2Proof.Machine
end

section
namespace Sys2Proof.Machine

/-! ## A destination and two sources: the faults (60_exceptions.md R162, R163, R165) and the effect -/

theorem operandFault_source_of_valid {w : Word} (h : w.toNat < 32776) :
    operandFault (.source, decodeOperand w) = none := by
  rcases Nat.lt_or_ge w.toNat 32768 with hlt | hge
  · rw [decodeOperand_of_lt hlt, operandFault]
  · rw [decodeOperand_of_register hge h, operandFault]

theorem exec_of_badThirdOperand {s : State} {i : Instr} {k : FaultKind} {x y z : Role × Operand}
    {rest : List (Role × Operand)} (hi : i.operands = x :: y :: z :: rest) (hx : operandFault x = none)
    (hy : operandFault y = none) (hz : operandFault z = some k) : exec i s = .next (s.raise k) :=
  exec_of_badOperand (by
    rw [firstOperandFault, hi, List.findSome?_cons, hx, List.findSome?_cons, hy, List.findSome?_cons, hz])

/-- Where both sources are invalid the first of them ends the step, so the clause of the rule splits on `b`. -/
theorem exceptionsDSS {op : Word} {name : String} {mk : Operand → Operand → Operand → Instr}
    (hrow : opcodeRow op = some ⟨name, .f3 mk⟩)
    (hroles : ∀ a b c, (mk a b c).operands = [(.dest, a), (.source, b), (.source, c)]) : ExceptionsDSS op mk := by
  intro s a b c
  refine ⟨fun ha => ?_, fun ha => ?_, fun ha ha' hbc => ?_, fun hrun hop hgt hle => ?_⟩
  · exact exec_of_badFirstOperand (hroles _ _ _) (operandFault_dest_of_literal ha)
  · exact exec_of_badFirstOperand (hroles _ _ _) (operandFault_of_invalid _ ha)
  · have hdest := operandFault_dest_of_register ha ha'
    rcases Nat.lt_or_ge b.toNat 32776 with hb | hb
    · have hc : 32776 ≤ c.toNat := hbc.resolve_left hb.not_ge
      exact exec_of_badThirdOperand (hroles _ _ _) hdest (operandFault_source_of_valid hb)
        (operandFault_of_invalid _ hc)
    · exact exec_of_badSecondOperand (hroles _ _ _) hdest (operandFault_of_invalid _ hb)
  · exact step_of_operandFetch_gt hrow hrun hop hgt hle

/-- The effect that the instructions with a destination and two sources share. -/
theorem commit_writeOf2_of_resolve {s : State} {f : Word → Word → Except FaultKind Word} {d : RegIndex} {b c : Operand}
    {vb vc v : Word} (hb : s.resolve b = .ok vb) (hc : s.resolve c = .ok vc) (hf : f vb vc = .ok v) :
    s.commit (s.writeOf2 f (.register d) b c) = .next ((s.writeReg d v).advance 4) := by
  rw [writeOf2_eq_ok.2 ⟨d, vb, vc, v, rfl, hb, hc, hf, rfl⟩, commit_ok]

/-! ## Comparison (42_compare.md R110, R111) -/

theorem eqResult_eq (vb vc : Word) : eqResult vb vc = if vb.toNat = vc.toNat then 1#16 else 0#16 := by
  simp [eqResult, truthWord, BitVec.toNat_inj]

theorem gtResult_eq (vb vc : Word) : gtResult vb vc = if vb.toNat > vc.toNat then 1#16 else 0#16 := by
  simp [gtResult, truthWord]

section
variable {s : State} {d : RegIndex} {b c : Operand} {vb vc : Word}

theorem exec_eq_of_resolve (hb : s.resolve b = .ok vb) (hc : s.resolve c = .ok vc) :
    exec (.eq (.register d) b c) s = .next ((s.writeReg d (eqResult vb vc)).advance 4) :=
  commit_writeOf2_of_resolve hb hc rfl

theorem exec_gt_of_resolve (hb : s.resolve b = .ok vb) (hc : s.resolve c = .ok vc) :
    exec (.gt (.register d) b c) s = .next ((s.writeReg d (gtResult vb vc)).advance 4) :=
  commit_writeOf2_of_resolve hb hc rfl

end

/-- Settles O43: the result is 1 exactly on equal values, the faults are those of a destination and two sources. -/
theorem eqComparesAllSixteenBits : Obligations.EqComparesAllSixteenBits := by
  refine ⟨fun _ _ _ => rfl, fun s d b c vb vc hb hc => ?_, exceptionsDSS rfl fun _ _ _ => rfl⟩
  rw [← eqResult_eq]
  exact exec_eq_of_resolve hb hc

/-- Settles O44: the result is 1 exactly on a greater first value, the faults are those of a destination and two
sources. -/
theorem gtComparesUnsigned : Obligations.GtComparesUnsigned := by
  refine ⟨fun _ _ _ => rfl, fun s d b c vb vc hb hc => ?_, exceptionsDSS rfl fun _ _ _ => rfl⟩
  rw [← gtResult_eq]
  exact exec_gt_of_resolve hb hc

end Sys2Proof.Machine
end

section
namespace Sys2Proof.Machine

/-! ## Two sources: the faults (60_exceptions.md R162, R165) -/

/-- Where both sources are invalid the first of them ends the step, so the clause of the rule splits on `a`. -/
theorem exceptionsSS {op : Word} {name : String} {mk : Operand → Operand → Instr}
    (hrow : opcodeRow op = some ⟨name, .f2 mk⟩)
    (hroles : ∀ a b, (mk a b).operands = [(.source, a), (.source, b)]) : ExceptionsSS op mk := by
  intro s a b
  refine ⟨fun hab => ?_, fun hrun hop hgt hle => ?_⟩
  · rcases Nat.lt_or_ge a.toNat 32776 with ha | ha
    · have hb : 32776 ≤ b.toNat := hab.resolve_left ha.not_ge
      exact exec_of_badSecondOperand (hroles _ _) (operandFault_source_of_valid ha) (operandFault_of_invalid _ hb)
    · exact exec_of_badFirstOperand (hroles _ _) (operandFault_of_invalid _ ha)
  · exact step_of_operandFetch_gt hrow hrun hop hgt hle

/-! ## Control transfer (43_control_transfer.md R120 to R125) -/

section
variable {s : State} {a b : Operand} {va vb : Word}

/-- A jump target is written unchecked; the fetch after it checks it (43_control_transfer.md R125). -/
theorem step_jumpTo_of_gt {v : Word} (hrun : s.run = .running) (hgt : 32767 < v.toNat) :
    step (s.jumpTo v) = .next ((s.jumpTo v).raise .outOfRangeAddress) :=
  step_of_fetch_error hrun (fetch_of_pc_ge hgt)

theorem exec_jmp_of_resolve (ha : s.resolve a = .ok va) : exec (.jmp a) s = .next (s.jumpTo va) := by
  rw [exec, execJmp, ha, ok_bind, pure_eq_ok, commit_ok]

/-- The effect that the conditional jumps share: a jump, to the next instruction where it is not taken. -/
theorem commit_jumpIf_of_resolve {taken : Word → Bool} (ha : s.resolve a = .ok va) (hb : s.resolve b = .ok vb) :
    s.commit (s.jumpIf taken a b) = .next (s.jumpTo (if taken va then vb else s.pc + 3#16)) := by
  rw [jumpIf_eq_ok.2 ⟨va, vb, ha, hb, rfl⟩, commit_ok]
  cases taken va <;> rfl

theorem exec_jt_of_resolve (ha : s.resolve a = .ok va) (hb : s.resolve b = .ok vb) :
    exec (.jt a b) s = .next (s.jumpTo (if va.toNat ≠ 0 then vb else s.pc + 3#16)) := by
  have htaken : (va != 0#16) = true ↔ va.toNat ≠ 0 := by simp [← BitVec.toNat_inj]
  simp only [← htaken]
  exact commit_jumpIf_of_resolve ha hb

theorem exec_jf_of_resolve (ha : s.resolve a = .ok va) (hb : s.resolve b = .ok vb) :
    exec (.jf a b) s = .next (s.jumpTo (if va.toNat = 0 then vb else s.pc + 3#16)) := by
  have htaken : (va == 0#16) = true ↔ va.toNat = 0 := by simp [← BitVec.toNat_inj]
  simp only [← htaken]
  exact commit_jumpIf_of_resolve ha hb

theorem exec_call_of_room (ha : s.resolve a = .ok va) (hroom : s.stackFull = false) :
    exec (.call a) s = .next ((s.withStack (s.stack ++ [s.pc + 2#16])).jumpTo va) := by
  rw [exec, execCall, ha, ok_bind, pushValue_eq_ok.2 ⟨hroom, rfl⟩, ok_bind, pure_eq_ok, commit_ok]

theorem exec_call_of_full (ha : s.resolve a = .ok va) (hfull : s.stackFull = true) :
    exec (.call a) s = .next (s.raise .stackOverflow) := by
  rw [exec, execCall, ha, ok_bind, pushValue_eq_error.2 ⟨hfull, rfl⟩, error_bind, commit_error]

theorem exec_ret_of_append {st : List Word} {v : Word} (hstack : s.stack = st ++ [v]) :
    exec .ret s = .next ((s.withStack st).jumpTo v) := by
  rw [exec, execRet, popValue_of_append hstack]

theorem exec_ret_of_empty (hempty : s.stack = []) : exec .ret s = .next s.haltNow := by
  rw [exec, execRet, popValue_eq_none.2 hempty]

end

/-- Settles O45: the effect is `exec_jmp_of_resolve`, the next fetch checks the target, the faults are those of a
source. -/
theorem jmpGoesToItsTarget : Obligations.JmpGoesToItsTarget :=
  ⟨fun _ => rfl, fun _ _ _ ha => ⟨exec_jmp_of_resolve ha, step_jumpTo_of_gt⟩, exceptionsS rfl fun _ => rfl⟩

/-- Settles O46: the effect is `exec_jt_of_resolve`, the faults are those of two sources. -/
theorem jtJumpsWhenNonZero : Obligations.JtJumpsWhenNonZero :=
  ⟨fun _ _ => rfl, fun _ _ _ _ _ ha hb => exec_jt_of_resolve ha hb, exceptionsSS rfl fun _ _ => rfl⟩

/-- Settles O47: the effect is `exec_jf_of_resolve`, the faults are those of two sources. -/
theorem jfJumpsWhenZero : Obligations.JfJumpsWhenZero :=
  ⟨fun _ _ => rfl, fun _ _ _ _ _ ha hb => exec_jf_of_resolve ha hb, exceptionsSS rfl fun _ _ => rfl⟩

/-- Settles O56, by whether the stack is full (10_state.md R29); the other faults are those of a source. -/
theorem callPushesTheReturnAddress : Obligations.CallPushesTheReturnAddress := by
  refine ⟨fun _ => rfl, fun s a va ha => ⟨fun hroom => ?_, fun hfull => ?_⟩, exceptionsS rfl fun _ => rfl⟩
  · exact exec_call_of_room ha (stackFull_eq_false.2 hroom)
  · exact exec_call_of_full ha (stackFull_eq_true.2 ⟨_, hfull, le_rfl⟩)

/-- Settles O57, by whether the stack is empty; the fetch after a return checks the address taken off it. -/
theorem retPopsThePcOrHalts : Obligations.RetPopsThePcOrHalts := by
  refine ⟨rfl, fun s => ⟨fun st v hstack => ⟨?_, fun hrun hgt => ?_⟩, exec_ret_of_empty⟩⟩
  · exact exec_ret_of_append hstack
  · exact step_jumpTo_of_gt (s := s.withStack st) hrun hgt

end Sys2Proof.Machine
end

section
namespace Sys2Proof.Machine

/-! ## The mask and the results of arithmetic and logic (44_arithmetic_logic.md R130 to R138) -/

theorem getLsbD_mask15 (v : Word) (j : Nat) : (mask15 v).getLsbD j = (v.getLsbD j && decide (j < 15)) := by
  have hmask : (0x7FFF#16).getLsbD j = decide (j < 15) := by
    rw [BitVec.getLsbD_ofNat, show 0x7FFF = 2 ^ 15 - 1 from rfl, Nat.testBit_two_pow_sub_one, ← Bool.decide_and]
    exact decide_eq_decide.2 (by omega)
  rw [mask15, BitVec.getLsbD_and, hmask]

theorem getLsbD_mask15_of_lt (v : Word) {j : Nat} (hj : j < 15) : (mask15 v).getLsbD j = v.getLsbD j := by
  rw [getLsbD_mask15, decide_eq_true hj, Bool.and_true]

theorem getLsbD_mask15_fifteen (v : Word) : (mask15 v).getLsbD 15 = false := by
  rw [getLsbD_mask15, decide_eq_false (lt_irrefl 15), Bool.and_false]

theorem mask15_eq_ofNat (v : Word) : mask15 v = BitVec.ofNat 16 (v.toNat % 32768) := by
  apply BitVec.eq_of_toNat_eq
  rw [mask15_toNat, BitVec.toNat_ofNat]
  omega

theorem toNat_mask15_add (vb vc : Word) : (mask15 (vb + vc)).toNat = (vb.toNat + vc.toNat) % 32768 := by
  rw [mask15_toNat, BitVec.toNat_add, Nat.mod_mod_of_dvd _ (by decide)]

theorem toNat_mask15_mul (vb vc : Word) : (mask15 (vb * vc)).toNat = (vb.toNat * vc.toNat) % 32768 := by
  rw [mask15_toNat, BitVec.toNat_mul, Nat.mod_mod_of_dvd _ (by decide)]

theorem addResult_eq_mask15 (vb vc : Word) : addResult vb vc = mask15 (vb + vc) := by
  rw [addResult, ← toNat_mask15_add, BitVec.ofNat_toNat, BitVec.setWidth_eq]

theorem multResult_eq_mask15 (vb vc : Word) : multResult vb vc = mask15 (vb * vc) := by
  rw [multResult, ← toNat_mask15_mul, BitVec.ofNat_toNat, BitVec.setWidth_eq]

theorem modResult_of_ne_zero (vb : Word) {vc : Word} (h : vc.toNat ≠ 0) :
    modResult vb vc = .ok (BitVec.ofNat 16 (vb.toNat % vc.toNat % 32768)) := by
  have hlt : vb.toNat % vc.toNat < 2 ^ 16 := (Nat.mod_le _ _).trans_lt vb.isLt
  rw [modResult, if_neg h, mask15_eq_ofNat, BitVec.toNat_ofNat, Nat.mod_eq_of_lt hlt]

theorem notResult_eq (vb : Word) : notResult vb = BitVec.ofNat 16 (32767 - vb.toNat % 32768) := by
  have hlt := vb.isLt
  rw [notResult, mask15_eq_ofNat, BitVec.toNat_not]
  congr 1
  omega

/-! ## Arithmetic and logic (44_arithmetic_logic.md R131 to R136) -/

/-- The effect that the instructions with a destination and one source share. -/
theorem commit_writeOf1_of_resolve {s : State} {f : Word → Except FaultKind Word} {d : RegIndex} {b : Operand}
    {vb v : Word} (hb : s.resolve b = .ok vb) (hf : f vb = .ok v) :
    s.commit (s.writeOf1 f (.register d) b) = .next ((s.writeReg d v).advance 3) := by
  rw [writeOf1_eq_ok.2 ⟨d, vb, v, rfl, hb, hf, rfl⟩, commit_ok]

section
variable {s : State} {d : RegIndex} {b c : Operand} {vb vc : Word}

theorem exec_add_of_resolve (hb : s.resolve b = .ok vb) (hc : s.resolve c = .ok vc) :
    exec (.add (.register d) b c) s = .next ((s.writeReg d (mask15 (vb + vc))).advance 4) :=
  addResult_eq_mask15 vb vc ▸ commit_writeOf2_of_resolve hb hc rfl

theorem exec_mult_of_resolve (hb : s.resolve b = .ok vb) (hc : s.resolve c = .ok vc) :
    exec (.mult (.register d) b c) s = .next ((s.writeReg d (mask15 (vb * vc))).advance 4) :=
  multResult_eq_mask15 vb vc ▸ commit_writeOf2_of_resolve hb hc rfl

theorem exec_mod_of_ne_zero (hb : s.resolve b = .ok vb) (hc : s.resolve c = .ok vc) (h : vc.toNat ≠ 0) :
    exec (.mod (.register d) b c) s =
      .next ((s.writeReg d (BitVec.ofNat 16 (vb.toNat % vc.toNat % 32768))).advance 4) :=
  commit_writeOf2_of_resolve hb hc (modResult_of_ne_zero vb h)

theorem exec_mod_of_eq_zero (hb : s.resolve b = .ok vb) (hc : s.resolve c = .ok vc) (h : vc.toNat = 0) :
    exec (.mod (.register d) b c) s = .next (s.raise .modByZero) := by
  rw [exec, execMod, State.writeOf2, destReg_register, ok_bind, hb, ok_bind, hc, ok_bind,
    modResult_eq_error.2 ⟨h, rfl⟩, error_bind, commit_error]

theorem exec_and_of_resolve (hb : s.resolve b = .ok vb) (hc : s.resolve c = .ok vc) :
    exec (.and (.register d) b c) s = .next ((s.writeReg d (mask15 (vb &&& vc))).advance 4) :=
  commit_writeOf2_of_resolve hb hc rfl

theorem exec_or_of_resolve (hb : s.resolve b = .ok vb) (hc : s.resolve c = .ok vc) :
    exec (.or (.register d) b c) s = .next ((s.writeReg d (mask15 (vb ||| vc))).advance 4) :=
  commit_writeOf2_of_resolve hb hc rfl

theorem exec_not_of_resolve (hb : s.resolve b = .ok vb) :
    exec (.not (.register d) b) s =
      .next ((s.writeReg d (BitVec.ofNat 16 (32767 - vb.toNat % 32768))).advance 3) :=
  notResult_eq vb ▸ commit_writeOf1_of_resolve hb rfl

end

/-- Settles O48: the register takes the masked sum, whose value is `toNat_mask15_add`; the faults are those of a
destination and two sources. -/
theorem addIsModulo32768 : Obligations.AddIsModulo32768 :=
  ⟨fun _ _ _ => rfl, fun _ _ _ _ _ _ hb hc => ⟨exec_add_of_resolve hb hc, toNat_mask15_add _ _⟩,
    exceptionsDSS rfl fun _ _ _ => rfl⟩

/-- Settles O49: the register takes the masked product, whose value is `toNat_mask15_mul`; the faults are those of a
destination and two sources. -/
theorem multIsModulo32768 : Obligations.MultIsModulo32768 :=
  ⟨fun _ _ _ => rfl, fun _ _ _ _ _ _ hb hc => ⟨exec_mult_of_resolve hb hc, toNat_mask15_mul _ _⟩,
    exceptionsDSS rfl fun _ _ _ => rfl⟩

/-- Settles O50, by whether the divisor is 0; the other faults are those of a destination and two sources. -/
theorem modIsTheMaskedRemainder : Obligations.ModIsTheMaskedRemainder :=
  ⟨fun _ _ _ => rfl, fun _ _ _ _ _ _ hb hc => ⟨exec_mod_of_ne_zero hb hc, exec_mod_of_eq_zero hb hc⟩,
    exceptionsDSS rfl fun _ _ _ => rfl⟩

/-- Settles O51: the result is `vb &&& vc` masked: the mask keeps the bits below 15 and clears bit 15. -/
theorem andIsBitwiseInFifteenBits : Obligations.AndIsBitwiseInFifteenBits := by
  refine ⟨fun _ _ _ => rfl, fun s d b c vb vc hb hc => ?_, exceptionsDSS rfl fun _ _ _ => rfl⟩
  refine ⟨mask15 (vb &&& vc), exec_and_of_resolve hb hc, fun j hj => ?_, getLsbD_mask15_fifteen _⟩
  rw [getLsbD_mask15_of_lt _ hj, BitVec.getLsbD_and]

/-- Settles O52: the result is `vb ||| vc` masked: the mask keeps the bits below 15 and clears bit 15. -/
theorem orIsBitwiseInFifteenBits : Obligations.OrIsBitwiseInFifteenBits := by
  refine ⟨fun _ _ _ => rfl, fun s d b c vb vc hb hc => ?_, exceptionsDSS rfl fun _ _ _ => rfl⟩
  refine ⟨mask15 (vb ||| vc), exec_or_of_resolve hb hc, fun j hj => ?_, getLsbD_mask15_fifteen _⟩
  rw [getLsbD_mask15_of_lt _ hj, BitVec.getLsbD_or]

/-- Settles O53: the result is `notResult_eq`, the faults are those of a destination and a source. -/
theorem notIsTheFifteenBitComplement : Obligations.NotIsTheFifteenBitComplement :=
  ⟨fun _ _ => rfl, fun _ _ _ _ hb => exec_not_of_resolve hb, exceptionsDS rfl fun _ _ => rfl⟩

end Sys2Proof.Machine
end

section
namespace Sys2Proof.Machine

/-! ## Memory access (45_memory_access.md R140, R141) -/

section
variable {s : State} {d : RegIndex} {a b : Operand} {va vb : Word}

theorem exec_rmem_of_le (hb : s.resolve b = .ok vb) (hle : vb.toNat ≤ 32767) :
    exec (.rmem (.register d) b) s = .next ((s.writeReg d (s.cell vb.toNat)).advance 3) :=
  commit_writeOf1_of_resolve hb (memRead_of_lt (Nat.lt_succ_of_le hle))

theorem exec_rmem_of_gt (hb : s.resolve b = .ok vb) (hgt : 32767 < vb.toNat) :
    exec (.rmem (.register d) b) s = .next (s.raise .outOfRangeAddress) := by
  rw [exec, execRmem, State.writeOf1, destReg_register, ok_bind, hb, ok_bind, memRead_of_ge hgt, error_bind,
    commit_error]

theorem exec_wmem_of_le (ha : s.resolve a = .ok va) (hb : s.resolve b = .ok vb) (hle : va.toNat ≤ 32767) :
    exec (.wmem a b) s = .next ((s.setCell va.toNat vb).advance 3) := by
  rw [exec, execWmem, ha, ok_bind, hb, ok_bind, memWrite_of_lt (Nat.lt_succ_of_le hle), ok_bind, pure_eq_ok,
    commit_ok]

theorem exec_wmem_of_gt (ha : s.resolve a = .ok va) (hb : s.resolve b = .ok vb) (hgt : 32767 < va.toNat) :
    exec (.wmem a b) s = .next (s.raise .outOfRangeAddress) := by
  rw [exec, execWmem, ha, ok_bind, hb, ok_bind, memWrite_of_ge hgt, error_bind, commit_error]

theorem setCell_cell_of_ne {x y : Nat} (h : y ≠ x) (v : Word) : (s.setCell x v).cell y = s.cell y := by
  rw [State.setCell_cell, if_neg h]

end

/-- Settles O54, by whether the address is in range (20_memory.md R41); the other faults are those of a destination and
a source. -/
theorem rmemReadsACell : Obligations.RmemReadsACell :=
  ⟨fun _ _ => rfl, fun _ _ _ _ hb => ⟨exec_rmem_of_le hb, exec_rmem_of_gt hb⟩, exceptionsDS rfl fun _ _ => rfl⟩

/-- Settles O55, by whether the address is in range (20_memory.md R42): the memory after the store is that of
`State.setCell`. The other faults are those of two sources. -/
theorem wmemWritesACell : Obligations.WmemWritesACell := by
  refine ⟨fun _ _ => rfl, fun s a b va vb ha hb => ⟨fun hle => ?_, exec_wmem_of_gt ha hb⟩,
    exceptionsSS rfl fun _ _ => rfl⟩
  refine ⟨(s.setCell va.toNat vb).mem, exec_wmem_of_le ha hb hle, ?_, fun x hx => ?_⟩
  · exact State.setCell_cell_self (s := s) va.toNat vb
  · exact setCell_cell_of_ne hx vb

end Sys2Proof.Machine
end

section
namespace Sys2Proof.Machine

/-! ## System and I/O (46_system_io.md R150 to R153)

`in` has its rules already: `exec_inp_of_take` and `exec_inp_of_empty`. -/

section
variable {s : State}

theorem exec_halt (s : State) : exec .halt s = .next s.haltNow := rfl

theorem exec_noop (s : State) : exec .noop s = .next (s.advance 1) := rfl

theorem exec_out_of_resolve {a : Operand} {va : Word} (ha : s.resolve a = .ok va) :
    exec (.out a) s = .next ((s.outChar va).advance 2) := by
  rw [exec, execOut, ha, ok_bind, pure_eq_ok, commit_ok]

theorem step_of_haltNow (s : State) : step s.haltNow = .next s.haltNow :=
  step_of_terminal (by rw [State.haltNow_run]; decide)

/-- `noop` has no operand Word, so it is fetched at every address of the memory, the last one included. -/
theorem step_of_noop (hrun : s.run = .running) (hpc : s.pc.toNat ≤ 32767) (hop : s.cell s.pc.toNat = 21#16) :
    step s = .next (s.advance 1) := by
  have hrow : opcodeRow (s.cell s.pc.toNat) = some ⟨"noop", .f0 .noop⟩ := by rw [hop]; rfl
  have hfetch : s.fetch = .ok .noop := fetch_of_le hrow (Nat.lt_succ_of_le hpc) rfl
  exact (step_of_fetch hrun hfetch).trans (exec_noop s)

end

/-- The low byte of a Word is its value modulo 256 (46_system_io.md R155). -/
theorem setWidth_eight_eq_ofNat (v : Word) : v.setWidth 8 = BitVec.ofNat 8 (v.toNat % 256) := by
  apply BitVec.eq_of_toNat_eq
  rw [BitVec.toNat_setWidth, BitVec.toNat_ofNat, Nat.mod_mod]

/-- Settles O39: the effect is `exec_halt`, and a Halted state is terminal. -/
theorem haltStopsTheMachine : Obligations.HaltStopsTheMachine := by
  refine ⟨rfl, fun s => ⟨exec_halt s, fun t hstep => ?_⟩⟩
  exact Host.Outcome.next.inj (hstep.symm.trans (step_of_haltNow s))

/-- Settles O58: the effect is `exec_out_of_resolve`, the faults are those of a source. -/
theorem outEmitsTheLowEightBits : Obligations.OutEmitsTheLowEightBits := by
  refine ⟨fun _ => rfl, fun s a va ha => ?_, exceptionsS rfl fun _ => rfl⟩
  rw [← setWidth_eight_eq_ofNat]
  exact exec_out_of_resolve ha

/-- Settles O59, by whether there is a character to take: what is left of the input after one is taken is
`take_spec`, and the faults are those of a destination. -/
theorem inTakesOneCharacter : Obligations.InTakesOneCharacter := by
  refine ⟨fun _ => rfl, fun s d => ⟨fun ch rest hinput => ?_, fun ch hnext => ?_, exec_inp_of_empty⟩,
    exceptionsD rfl fun _ => rfl⟩
  · rw [BitVec.ofNat_toNat]
    exact exec_inp_of_take (by rw [hinput, InputSeq.take])
  · obtain ⟨rest, htake⟩ := take_of_char? hnext
    refine ⟨rest, (take_spec htake).2, ?_⟩
    rw [BitVec.ofNat_toNat]
    exact exec_inp_of_take htake

/-- Settles O60: the effect is `exec_noop`; from the last address it leads to the pc 32768, where the next fetch
faults. -/
theorem noopOnlyAdvancesThePc : Obligations.NoopOnlyAdvancesThePc := by
  refine ⟨rfl, fun s => ⟨exec_noop s, fun hrun hpc hop => ⟨?_, ?_⟩⟩⟩
  · have hnext : s.pc + 1#16 = 32768#16 := by bv_omega
    rw [step_of_noop hrun hpc.le (hpc ▸ hop), State.advance, hnext]
  · exact step_jumpTo_of_gt hrun (by decide)

end Sys2Proof.Machine
end

section
namespace Sys2Proof.Machine

/-! ## The faults of a step and their order (60_exceptions.md R171, R173) -/

section
variable {s t : State} {i : Instr} {k : FaultKind}

/-- No instruction has two execution faults to choose between (60_exceptions.md R173, last column). -/
theorem executionFaults_eq_singleton (h : k ∈ executionFaults i) : executionFaults i = [k] := by
  have hlength : (executionFaults i).length ≤ 1 := by cases i <;> simp [executionFaults]
  obtain ⟨k', hk'⟩ := List.length_eq_one_iff.1 (hlength.antisymm (List.length_pos_of_mem h))
  rw [hk', List.mem_singleton] at h
  rw [hk', h]

/-- An executed instruction ends in Faulted by fault entry alone, for its first bad operand or, with good operands, for
an execution fault. -/
theorem effect_raised_of_faulted (heffect : Effect s i t) (hrun : s.run = .running) (hfaulted : t.run = .faulted) :
    ∃ k, t = s.raise k ∧
      (firstOperandFault i = some k ∨ firstOperandFault i = none ∧ k ∈ executionFaults i) := by
  cases heffect with
  | raised i k hfault => exact ⟨k, rfl, hfault⟩
  | halted => simp at hfaulted
  | retHalted hempty => simp at hfaulted
  | _ => simp [hrun] at hfaulted

end

/-- Settles O18, one place of the order at a time: the fetch fails in the order of its phases, the first bad operand
ends the execution, and with good operands what is left is the one execution fault. -/
theorem faultPriorityIsThePhaseOrder : Obligations.FaultPriorityIsThePhaseOrder := by
  intro s hrun
  refine ⟨fun hpc => ?_, fun hpc hop => ?_, fun row hpc hrow hgt => ?_, fun i k hfetch hbad => ?_,
    fun i t hfetch hgood hstep hfaulted => ?_⟩
  · exact step_of_fetch_error hrun (fetch_of_pc_ge hpc)
  · exact (dispatchSelectsByOpcode s hrun hpc).1 hop
  · exact step_of_fetch_error hrun (fetch_of_operand_gt (Nat.lt_succ_of_le hpc) hrow hgt)
  · exact firstBadOperandEndsTheStep s i k hrun hfetch hbad
  · have hexec : exec i s = .next t := (step_of_fetch hrun hfetch).symm.trans hstep
    obtain ⟨k, ht, hbad | ⟨-, hk⟩⟩ := effect_raised_of_faulted (effect_of_exec hexec) hrun hfaulted
    · simp [hgood] at hbad
    · exact ⟨k, executionFaults_eq_singleton hk, ht⟩

/-! ## Halted (60_exceptions.md R177) -/

section
variable {s t : State}

theorem step_of_halting (hrun : s.run = .running) (h : s.fetch = .ok .halt ∨ s.fetch = .ok .ret ∧ s.stack = []) :
    step s = .next s.haltNow := by
  rcases h with hfetch | ⟨hfetch, hempty⟩
  · exact (step_of_fetch hrun hfetch).trans (exec_halt s)
  · exact (step_of_fetch hrun hfetch).trans (exec_ret_of_empty hempty)

theorem halting_of_step_halted (hrun : s.run = .running) (hstep : step s = .next t) (hhalted : t.run = .halted) :
    s.fetch = .ok .halt ∨ s.fetch = .ok .ret ∧ s.stack = [] := by
  rcases step_run_cases hrun hstep with hrunning | ⟨-, hinstr⟩ | ⟨k, rfl⟩
  · simp [hrunning] at hhalted
  · exact hinstr
  · simp at hhalted

/-- No fault is recorded in a Halted state that a running core reached (10_state.md R33, R34). -/
theorem haltNow_status_zero (hrun : s.run = .running) (hstatus : s.statusConsistent) :
    s.haltNow.faultCode = 0#3 ∧ s.haltNow.faultPc = 0#16 := by
  obtain ⟨hkind, hpc⟩ := hstatus.2 (by simp [hrun])
  exact ⟨by rw [State.faultCode, State.haltNow_faultKind, hkind], hpc⟩

end

/-- Settles O22: what halts a running core ends in the state `State.haltNow`, and that state is terminal. -/
theorem haltedIsReachedInTwoWays : Obligations.HaltedIsReachedInTwoWays := by
  intro s t hrun hstep
  have eq_haltNow : (s.fetch = .ok .halt ∨ s.fetch = .ok .ret ∧ s.stack = []) → t = s.haltNow := fun h =>
    Host.Outcome.next.inj (hstep.symm.trans (step_of_halting hrun h))
  refine ⟨⟨halting_of_step_halted hrun hstep, fun h => ?_⟩, fun hhalted => ?_⟩
  · rw [eq_haltNow h, State.haltNow_run]
  · obtain rfl := eq_haltNow (halting_of_step_halted hrun hstep hhalted)
    exact ⟨rfl, haltNow_status_zero hrun, fun u hu => Host.Outcome.next.inj (hu.symm.trans (step_of_haltNow s))⟩

end Sys2Proof.Machine
end

section
namespace Sys2Proof

/-! ## Decoding and encoding (30_encoding.md R60 to R67)

An instruction is read back by its opcode's row of the map, one format at a time; the Words of a decoded instruction
are those it was built of, by `encodesAs_of_opcodeRow`. -/

section
variable {op : Word} {name : String} {rest : List Word}

theorem decode_of_opcodeRow {row : OpRow} (hrow : opcodeRow op = some row) (ws : List Word) :
    decode (op :: ws) = row.shape.build ws := by
  rw [decode, hrow]

theorem decode_f0 {i : Instr} (hrow : opcodeRow op = some ⟨name, .f0 i⟩) : decode (op :: rest) = .ok (i, rest) :=
  decode_of_opcodeRow hrow rest

theorem decode_f1 {mk : Operand → Instr} (hrow : opcodeRow op = some ⟨name, .f1 mk⟩) (a : Operand) :
    decode (op :: encodeOperand a :: rest) = .ok (mk a, rest) := by
  rw [decode_of_opcodeRow hrow, Shape.build, decodeOperand_encodeOperand]

theorem decode_f2 {mk : Operand → Operand → Instr} (hrow : opcodeRow op = some ⟨name, .f2 mk⟩) (a b : Operand) :
    decode (op :: encodeOperand a :: encodeOperand b :: rest) = .ok (mk a b, rest) := by
  rw [decode_of_opcodeRow hrow, Shape.build, decodeOperand_encodeOperand, decodeOperand_encodeOperand]

theorem decode_f3 {mk : Operand → Operand → Operand → Instr} (hrow : opcodeRow op = some ⟨name, .f3 mk⟩)
    (a b c : Operand) :
    decode (op :: encodeOperand a :: encodeOperand b :: encodeOperand c :: rest) = .ok (mk a b c, rest) := by
  rw [decode_of_opcodeRow hrow, Shape.build, decodeOperand_encodeOperand, decodeOperand_encodeOperand,
    decodeOperand_encodeOperand]

end

/-- Settles O1: each instruction stands in its opcode's row of the map, under the format of its operand count. -/
theorem decodeOfEncodeGivesTheInstruction : Obligations.DecodeOfEncodeGivesTheInstruction := by
  intro i rest
  cases i with
  | halt => exact decode_f0 rfl
  | set a b => exact decode_f2 rfl a b
  | push a => exact decode_f1 rfl a
  | pop a => exact decode_f1 rfl a
  | eq a b c => exact decode_f3 rfl a b c
  | gt a b c => exact decode_f3 rfl a b c
  | jmp a => exact decode_f1 rfl a
  | jt a b => exact decode_f2 rfl a b
  | jf a b => exact decode_f2 rfl a b
  | add a b c => exact decode_f3 rfl a b c
  | mult a b c => exact decode_f3 rfl a b c
  | mod a b c => exact decode_f3 rfl a b c
  | and a b c => exact decode_f3 rfl a b c
  | or a b c => exact decode_f3 rfl a b c
  | not a b => exact decode_f2 rfl a b
  | rmem a b => exact decode_f2 rfl a b
  | wmem a b => exact decode_f2 rfl a b
  | call a => exact decode_f1 rfl a
  | ret => exact decode_f0 rfl
  | out a => exact decode_f1 rfl a
  | inp a => exact decode_f1 rfl a
  | noop => exact decode_f0 rfl

/-- A row's format builds an instruction out of the Words that its encoding consists of. -/
theorem encode_of_build {op : Word} {row : OpRow} {ws rest : List Word} {i : Instr} (hrow : opcodeRow op = some row)
    (hbuild : row.shape.build ws = .ok (i, rest)) : encode i ++ rest = op :: ws := by
  obtain ⟨hcount, rfl⟩ := build_eq_ok hbuild
  have hlen : (ws.take row.shape.operandCount).length = row.shape.operandCount := List.length_take_of_le hcount
  obtain ⟨j, htake, hwords⟩ := build_of_encodesAs (encodesAs_of_opcodeRow hrow) hlen
  obtain ⟨k, htake', happend⟩ := build_append (rest := ws.drop row.shape.operandCount) hlen.symm
  rw [List.take_append_drop, hbuild] at happend
  obtain rfl : i = k := by simpa using happend
  obtain rfl : i = j := by simpa [htake] using htake'.symm
  rw [hwords, List.cons_append, List.take_append_drop]

/-- Settles O2: a list that decodes begins with an opcode of the map, and `encode_of_build` gives the Words after it. -/
theorem encodeOfDecodeGivesTheWords : Obligations.EncodeOfDecodeGivesTheWords := by
  intro ws rest i hdecode
  cases ws with
  | nil => cases hdecode
  | cons op ws =>
    rcases hrow : opcodeRow op with _ | row
    · rw [decode, hrow] at hdecode
      cases hdecode
    · rw [decode_of_opcodeRow hrow] at hdecode
      exact encode_of_build hrow hdecode

/-- Settles O3, one list at a time. -/
theorem writtenOutWordsDecode : Obligations.WrittenOutWordsDecode :=
  ⟨rfl, rfl, rfl, rfl, rfl, rfl, rfl⟩

/-! ## The bits of operand and opcode Words (30_encoding.md R62, R63) -/

section
variable {w : Word}

theorem getLsbD_fifteen_eq (w : Word) : w.getLsbD 15 = decide (32768 ≤ w.toNat) := by
  rw [← BitVec.msb_eq_getLsbD_last w, BitVec.msb_eq_decide]

theorem toNat_extractLsb_div (w : Word) (hi lo : Nat) :
    (w.extractLsb hi lo).toNat = w.toNat / 2 ^ lo % 2 ^ (hi - lo + 1) := by
  rw [BitVec.extractLsb_toNat, Nat.shiftRight_eq_div_pow]

theorem decodeOperand_literal_spec (h : w.toNat ≤ 32767) :
    ∃ v : BitVec 15, decodeOperand w = .literal v ∧ v.toNat = w.toNat ∧ v.setWidth 16 = w := by
  have hvalue : (w.setWidth 15).toNat = w.toNat := by rw [BitVec.toNat_setWidth]; omega
  refine ⟨w.setWidth 15, decodeOperand_of_lt (by omega), hvalue, BitVec.eq_of_toNat_eq ?_⟩
  rw [BitVec.toNat_setWidth, hvalue]
  omega

theorem decodeOperand_register_spec (h : 32768 ≤ w.toNat) (h' : w.toNat ≤ 32775) :
    ∃ r : RegIndex, decodeOperand w = .register r ∧ r.val = w.toNat - 32768 ∧
      r.val = (w.extractLsb 2 0).toNat ∧ w.extractLsb 15 3 = 0x1000#13 := by
  refine ⟨⟨w.toNat - 32768, by omega⟩, decodeOperand_of_register h (by omega), rfl, ?_, BitVec.eq_of_toNat_eq ?_⟩
  · rw [toNat_extractLsb_div]
    simp only
    omega
  · rw [toNat_extractLsb_div, BitVec.toNat_ofNat]
    omega

theorem extractLsb_ne_zero_of_invalid (h : 32776 ≤ w.toNat) : w.extractLsb 14 3 ≠ 0#12 := by
  have hw := w.isLt
  intro hzero
  have hbits := congrArg BitVec.toNat hzero
  rw [toNat_extractLsb_div, BitVec.toNat_ofNat] at hbits
  omega

end

/-- Any three Words after an opcode Word of the map are enough for its operands. -/
theorem exists_decode_of_le {op : Word} (h : op.toNat ≤ 21) (a b c : Word) :
    ∃ i rest, decode [op, a, b, c] = .ok (i, rest) := by
  obtain ⟨row, hrow⟩ := opcodeRow_of_lt (Nat.lt_succ_of_le h)
  obtain ⟨i, hbuild⟩ := build_ok_of_le row.shape (ws := [a, b, c]) row.shape.operandCount_le_three
  exact ⟨i, _, (decode_of_opcodeRow hrow _).trans hbuild⟩

theorem opcode_of_decode {op : Word} {ws rest : List Word} {i : Instr} (h : decode (op :: ws) = .ok (i, rest)) :
    i.opcode = op := by
  have hwords := encodeOfDecodeGivesTheWords _ _ _ h
  rw [encode, List.cons_append, List.cons.injEq] at hwords
  exact hwords.1

/-- Settles O4, one class of operand Words at a time. -/
theorem operandClassesFollowTheirRanges : Obligations.OperandClassesFollowTheirRanges := by
  intro w
  refine ⟨fun h => ?_, fun h h' => decodeOperand_register_spec h h', fun h => ⟨⟨_, decodeOperand_of_ge h⟩, ?_, ?_⟩⟩
  · obtain ⟨v, hdecode, hvalue, hword⟩ := decodeOperand_literal_spec h
    exact ⟨v, hdecode, hvalue, hword, by rw [getLsbD_fifteen_eq, decide_eq_false (by omega)]⟩
  · rw [getLsbD_fifteen_eq, decide_eq_true (by omega)]
  · exact extractLsb_ne_zero_of_invalid h

/-- Settles O5: a Word of at most 21 has its row of the map and no bit above bit 4; a greater one has no row. -/
theorem opcodeWordIsComparedWhole : Obligations.OpcodeWordIsComparedWhole := by
  intro op a b c
  refine ⟨fun h => ⟨?_, BitVec.eq_of_toNat_eq ?_, ?_⟩, fun h => ?_⟩
  · obtain ⟨i, rest, hdecode⟩ := exists_decode_of_le h a b c
    exact ⟨i, rest, hdecode, opcode_of_decode hdecode⟩
  · rw [toNat_extractLsb_div, BitVec.toNat_ofNat]
    omega
  · rw [toNat_extractLsb_div]
    omega
  · rw [decode, opcodeRow_eq_none.2 h]

end Sys2Proof
end

section
namespace Sys2Proof.Machine

/-! ## Word Memory and the Words at the pc (20_memory.md R41, R42, 40_execution_cycle.md R80) -/

section
variable {s : State}

/-- A `wmem` at the pc whose address is in range completes, wherever the address lies (20_memory.md section 6). -/
theorem step_of_wmem {a b va vb : Word} (hrun : s.run = .running) (hcode : s.codeAt [16#16, a, b])
    (ha : s.resolve (decodeOperand a) = .ok va) (hb : s.resolve (decodeOperand b) = .ok vb) (hle : va.toNat ≤ 32767) :
    step s = .next ((s.setCell va.toNat vb).advance 3) := by
  have hfetch : s.fetch = .ok (.wmem (decodeOperand a) (decodeOperand b)) := fetch_of_codeAt hcode rfl
  exact (step_of_fetch hrun hfetch).trans (exec_wmem_of_le ha hb hle)

end

/-- Settles O9, on each side of the address decoder's bound. -/
theorem memReadChecksTheAddress : Obligations.MemReadChecksTheAddress :=
  fun _ _ => ⟨memRead_of_ge, fun h => memRead_of_lt (Nat.lt_succ_of_le h)⟩

/-- Settles O10: the state after a write in range is that of `State.setCell`. -/
theorem memWriteChangesOneCell : Obligations.MemWriteChangesOneCell := by
  intro s addr v
  refine ⟨memWrite_of_ge, fun h =>
    ⟨s.setCell addr.toNat v, memWrite_of_lt (Nat.lt_succ_of_le h), ?_, fun x hx => ?_, rfl⟩⟩
  · exact State.setCell_cell_self (s := s) addr.toNat v
  · exact setCell_cell_of_ne hx v

/-- Settles O13: what the decoder reads at the pc is what the step fetches. -/
theorem aStepRunsTheDecodedInstruction : Obligations.AStepRunsTheDecodedInstruction :=
  fun _ _ _ hrun hcode hdecode => step_of_fetch hrun (fetch_of_codeAt hcode hdecode)

/-- Settles O12: the state after the store reads the stored Word at its address, as does the fetch of the next step. -/
theorem aStoredWordIsSeenByTheNextFetch : Obligations.AStoredWordIsSeenByTheNextFetch := by
  intro s a b va vb hrun hcode ha hb hle
  have hstored : ((s.setCell va.toNat vb).advance 3).cell va.toNat = vb := State.setCell_cell_self (s := s) _ _
  refine ⟨_, step_of_wmem hrun hcode ha hb hle, rfl, ?_, fun x hx => setCell_cell_of_ne (s := s) hx vb,
    fun hnext hvb => ?_, fun hnext hvb => ?_⟩
  · rw [memRead_of_lt (Nat.lt_succ_of_le hle), hstored]
  · subst hnext
    exact step_of_noop (s := (s.setCell _ vb).advance 3) hrun hle (hstored.trans hvb)
  · subst hnext
    exact (dispatchSelectsByOpcode ((s.setCell _ vb).advance 3) hrun hle).1 (hvb.trans_eq (congrArg _ hstored.symm))

end Sys2Proof.Machine
end

section
namespace Sys2Proof.Machine

/-! ## Invariants of a step

A step stays where it is, or takes fault entry, or has the effect of the fetched instruction: to keep a property of
states is to keep it in the last two. -/

section
variable {s t : State} {i : Instr}

theorem step_keeps {P : State → Prop} (hs : P s) (hstep : step s = .next t) (hraise : ∀ k, P (s.raise k))
    (heffect : ∀ i, s.run = .running → s.fetch = .ok i → Effect s i t → P t) : P t := by
  rcases step_cases hstep with ⟨-, rfl⟩ | ⟨-, k, -, rfl⟩ | ⟨hrun, i, hfetch, -, he⟩
  · exact hs
  · exact hraise k
  · exact heffect i hrun hfetch he

/-! ### Memory in canonical form -/

theorem effect_memoryWf (h : Effect s i t) (hs : s.memoryWf) : t.memoryWf := by
  cases h with
  | stored a b va vb _ _ hva => exact Memory.wf_write _ _ _ _ hs hva
  | _ => exact hs

/-! ### The status registers (10_state.md R33, R34) -/

theorem statusConsistent_raise (k : FaultKind) : (s.raise k).statusConsistent :=
  ⟨fun _ => ⟨by simp, rfl⟩, fun h => absurd rfl h⟩

theorem statusConsistent_of_no_fault (hrun : t.run ≠ .faulted) (hkind : t.faultKind = none)
    (hpc : t.faultPc = 0#16) : t.statusConsistent :=
  ⟨fun h => absurd h hrun, fun _ => ⟨hkind, hpc⟩⟩

theorem effect_statusConsistent (h : Effect s i t) (hrun : s.run = .running) (hs : s.statusConsistent) :
    t.statusConsistent := by
  obtain ⟨hkind, hpc⟩ := hs.2 (by simp [hrun])
  cases h with
  | raised i k _ => exact statusConsistent_raise k
  | halted => exact statusConsistent_of_no_fault (by simp) hkind hpc
  | retHalted _ => exact statusConsistent_of_no_fault (by simp) hkind hpc
  | _ => exact statusConsistent_of_no_fault (by simp [hrun]) hkind hpc

/-! ### The depth of the stack (10_state.md R28, R29) -/

theorem stackWithinDepth_append {w : Word} (hroom : s.stackFull = false) :
    (s.withStack (s.stack ++ [w])).stackWithinDepth := by
  intro d hd
  have := stackFull_eq_false.1 hroom d hd
  simpa using this

theorem stackWithinDepth_of_append {st : List Word} {w : Word} (h : s.stack = st ++ [w]) (hs : s.stackWithinDepth) :
    (s.withStack st).stackWithinDepth := by
  intro d hd
  have := hs d hd
  rw [h, List.length_append] at this
  exact (Nat.le_add_right _ _).trans this

theorem effect_stackWithinDepth (h : Effect s i t) (hs : s.stackWithinDepth) : t.stackWithinDepth := by
  cases h with
  | pushed a va _ hroom => exact stackWithinDepth_append hroom
  | called a va _ hroom => exact stackWithinDepth_append hroom
  | popped d st v hstack => exact stackWithinDepth_of_append (s := s) hstack hs
  | returned st v hstack => exact stackWithinDepth_of_append (s := s) hstack hs
  | _ => exact hs

/-! ### Canonical values (10_state.md R23) -/

theorem canonical_of_written {v : Word} (hs : s.canonicalValues) (h : Written s v) : canonical v := by
  obtain ⟨hregs, -, hcells⟩ := hs
  cases h with
  | computed v hv => exact hv
  | register r => exact hregs r
  | cell a => exact hcells a

theorem canonicalValues_writeReg {v : Word} (d : RegIndex) (hs : s.canonicalValues) (hv : canonical v) :
    (s.writeReg d v).canonicalValues := by
  obtain ⟨hregs, hstack, hcells⟩ := hs
  refine ⟨fun r => ?_, hstack, hcells⟩
  rw [State.readReg_writeReg]
  split
  · exact hv
  · exact hregs r

theorem canonicalValues_setCell {v : Word} (a : Nat) (hs : s.canonicalValues) (hv : canonical v) :
    (s.setCell a v).canonicalValues := by
  obtain ⟨hregs, hstack, hcells⟩ := hs
  refine ⟨hregs, hstack, fun x => ?_⟩
  rw [State.setCell_cell]
  split
  · exact hv
  · exact hcells x

theorem canonicalValues_append {v : Word} (hs : s.canonicalValues) (hv : canonical v) :
    (s.withStack (s.stack ++ [v])).canonicalValues := by
  obtain ⟨hregs, hstack, hcells⟩ := hs
  exact ⟨hregs, List.forall_mem_append.2 ⟨hstack, List.forall_mem_singleton.2 hv⟩, hcells⟩

/-- Taking the top entry off: it is canonical, and so is what it leaves. -/
theorem canonicalValues_of_append {st : List Word} {v : Word} (h : s.stack = st ++ [v]) (hs : s.canonicalValues) :
    (s.withStack st).canonicalValues ∧ canonical v := by
  obtain ⟨hregs, hstack, hcells⟩ := hs
  rw [h, List.forall_mem_append, List.forall_mem_singleton] at hstack
  exact ⟨⟨hregs, hstack.1, hcells⟩, hstack.2⟩

/-- The Words of a fetched instruction all lie inside the memory. -/
theorem fetch_fits (h : s.fetch = .ok i) : s.pc.toNat + i.operands.length ≤ 32767 := by
  rcases fetch_cases s with ⟨-, hf⟩ | ⟨-, -, hf⟩ | ⟨row, -, -, -, hf⟩ | ⟨row, j, hrow, hlt, -, -⟩
  · simp [hf] at h
  · simp [hf] at h
  · simp [hf] at h
  · obtain ⟨j, hf, hwords⟩ := exists_fetch_of_fits hrow (Nat.le_of_lt_succ hlt)
    obtain rfl : j = i := by simpa [hf] using h
    have := congrArg List.length hwords
    simp only [encode, List.length_cons, List.length_map, cells_length] at this
    omega

/-- Below address 32766 the return address of a `call` is canonical. -/
theorem canonical_return_address {a : Operand} (hfetch : s.fetch = .ok (.call a)) (hs : ¬ s.callAtLastAddress) :
    canonical (s.pc + 2#16) := by
  have hfits := fetch_fits hfetch
  have hne : s.pc.toNat ≠ 32766 := fun h => hs ⟨h, a, hfetch⟩
  simp only [Instr.operands, List.length_cons, List.length_nil] at hfits
  rw [canonical, BitVec.toNat_add, BitVec.toNat_ofNat]
  omega

theorem canonical_of_char (ch : Byte) : canonical (ch.setWidth 16) := by
  rw [canonical, BitVec.toNat_setWidth]
  omega

theorem effect_canonicalValues (h : Effect s i t) (hs : s.canonicalValues)
    (hcall : ∀ a, i = .call a → canonical (s.pc + 2#16)) : t.canonicalValues := by
  cases h with
  | returned st v hstack => exact (canonicalValues_of_append hstack hs).1
  | wrote i d v _ _ hv => exact canonicalValues_writeReg d hs (canonical_of_written hs hv)
  | pushed a va ha _ => exact canonicalValues_append hs (canonical_of_written hs (written_resolve ha))
  | popped d st v hstack =>
    obtain ⟨hrest, hv⟩ := canonicalValues_of_append hstack hs
    exact canonicalValues_writeReg d hrest hv
  | called a va _ _ => exact canonicalValues_append hs (hcall a rfl)
  | stored a b va vb _ hb _ => exact canonicalValues_setCell _ hs (canonical_of_written hs (written_resolve hb))
  | tookChar d ch rest _ => exact canonicalValues_writeReg (s := s.withInput rest) d hs (canonical_of_char ch)
  | _ => exact hs

end

/-- Settles O11: a store in range is the only write to memory, and it keeps the form. -/
theorem everyStepKeepsMemoryCanonical : Obligations.EveryStepKeepsMemoryCanonical :=
  fun _ _ hs hstep => step_keeps hs hstep (fun _ => hs) fun _ _ _ he => effect_memoryWf he hs

/-- Settles O23: fault entry makes the status registers agree, and no other effect records a fault. -/
theorem everyStepKeepsTheStatusConsistent : Obligations.EveryStepKeepsTheStatusConsistent :=
  fun _ _ hs hstep => step_keeps hs hstep statusConsistent_raise fun _ hrun _ he => effect_statusConsistent he hrun hs

/-- Settles O33: `push` and `call` append where there is room, and nothing else makes the stack longer. -/
theorem everyStepKeepsTheStackWithinDepth : Obligations.EveryStepKeepsTheStackWithinDepth :=
  fun _ _ hs hstep => step_keeps hs hstep (fun _ => hs) fun _ _ _ he => effect_stackWithinDepth he hs

/-- Settles O28: every value an instruction writes is canonical where all it reads is, but for the return address of a
`call` at 32766. -/
theorem everyStepKeepsCanonicalValues : Obligations.EveryStepKeepsCanonicalValues := by
  intro s t hs hcall hstep
  refine step_keeps hs hstep (fun _ => hs) fun i _ hfetch he => effect_canonicalValues he hs ?_
  rintro a rfl
  exact canonical_return_address hfetch hcall

end Sys2Proof.Machine
end

section
namespace Sys2Proof.Machine

/-! ## Frames: what an effect leaves unchanged, field by field -/

section
variable {s t : State} {i : Instr}

/-! ### Registers (10_state.md R22) -/

theorem effect_regs (h : Effect s i t) :
    t.regs = s.regs ∨ ∃ d v, (Role.dest, Operand.register d) ∈ i.operands ∧ t.regs = s.regs.set d v := by
  cases h with
  | wrote i d v hd _ _ => exact .inr ⟨d, v, hd, rfl⟩
  | popped d st v _ => exact .inr ⟨d, v, List.mem_singleton_self _, rfl⟩
  | tookChar d ch rest _ => exact .inr ⟨d, ch.setWidth 16, List.mem_singleton_self _, rfl⟩
  | _ => exact .inl rfl

theorem readReg_of_regs_eq (h : t.regs = s.regs) (r : RegIndex) : t.readReg r = s.readReg r := by
  rw [State.readReg, h, State.readReg]

theorem readReg_of_regs_set {d r : RegIndex} {v : Word} (h : t.regs = s.regs.set d v) (hr : r ≠ d) :
    t.readReg r = s.readReg r :=
  (readReg_of_regs_eq (s := s.writeReg d v) h r).trans (State.readReg_writeReg_of_ne s hr v)

/-- The ten instructions that write no register have no destination (30_encoding.md R64). -/
theorem dest_not_mem_operands (o : Operand) (h : i.opcode.toNat ∈ [0, 2, 6, 7, 8, 16, 17, 18, 19, 21]) :
    (Role.dest, o) ∉ i.operands := by
  cases i <;> simp_all [Instr.opcode, Instr.operands]

/-! ### Memory (20_memory.md R42) -/

theorem effect_cell (h : Effect s i t) :
    (∀ x, t.cell x = s.cell x) ∨
      ∃ a b va, i = .wmem a b ∧ s.resolve a = .ok va ∧ ∀ x, x ≠ va.toNat → t.cell x = s.cell x := by
  cases h with
  | stored a b va vb ha _ _ => exact .inr ⟨a, b, va, rfl, ha, fun x hx => setCell_cell_of_ne (s := s) hx vb⟩
  | _ => exact .inl fun _ => rfl

/-! ### Output, input, parameters and status (10_state.md section 5, 46_system_io.md section 1) -/

theorem effect_output (h : Effect s i t) :
    t.output = s.output ∨ ∃ a v, i = .out a ∧ s.resolve a = .ok v ∧ t.output = s.output ++ [v.setWidth 8] := by
  cases h with
  | wroteChar a va ha => exact .inr ⟨a, va, rfl, ha, rfl⟩
  | _ => exact .inl rfl

theorem effect_input (h : Effect s i t) :
    t.input = s.input ∨ ∃ d ch, i = .inp (.register d) ∧ s.input.take = some (ch, t.input) := by
  cases h with
  | tookChar d ch rest htake => exact .inr ⟨d, ch, rfl, htake⟩
  | _ => exact .inl rfl

theorem effect_cfg (h : Effect s i t) : t.cfg = s.cfg := by
  cases h <;> rfl

theorem effect_status (h : Effect s i t) :
    (t.run = s.run ∧ t.faultKind = s.faultKind ∧ t.faultPc = s.faultPc) ∨ (∃ k, t = s.raise k) ∨
      (t = s.haltNow ∧ (i = .halt ∨ i = .ret ∧ s.stack = [])) := by
  cases h with
  | raised i k _ => exact .inr (.inl ⟨k, rfl⟩)
  | halted => exact .inr (.inr ⟨rfl, .inl rfl⟩)
  | retHalted hempty => exact .inr (.inr ⟨rfl, .inr ⟨rfl, hempty⟩⟩)
  | _ => exact .inl ⟨rfl, rfl, rfl⟩

end

/-- Settles O29: a register that an effect writes is named by a destination operand, which ten instructions lack. -/
theorem onlyTheDestinationRegisterChanges : Obligations.OnlyTheDestinationRegisterChanges := by
  intro i s t hexec
  rcases effect_regs (effect_of_exec hexec) with hkept | ⟨d, v, hd, hset⟩
  · exact ⟨fun r _ => readReg_of_regs_eq hkept r, fun _ => hkept⟩
  · refine ⟨fun r hr => readReg_of_regs_set hset ?_, fun hop => absurd hd (dest_not_mem_operands _ hop)⟩
    rintro rfl
    exact hr hd

/-- Settles O30: the one effect on memory is that of a `wmem` whose address operand resolves. -/
theorem onlyTheStoredCellChanges : Obligations.OnlyTheStoredCellChanges := by
  intro i s t hexec
  rcases effect_cell (effect_of_exec hexec) with hkept | ⟨a, b, va, rfl, ha, hother⟩
  · exact ⟨fun _ => hkept, fun _ _ _ _ _ x _ => hkept x, fun _ _ _ _ _ => hkept⟩
  · refine ⟨fun h => absurd rfl (h a b), fun a' b' va' hi ha' => ?_, fun a' b' k hi hk => ?_⟩
    · cases hi
      obtain rfl : va = va' := by simpa [ha] using ha'
      exact hother
    · cases hi
      simp [ha] at hk

/-- Settles O31, one effect at a time. -/
theorem onlyStackInstructionsChangeTheStack : Obligations.OnlyStackInstructionsChangeTheStack := by
  intro i s t hexec
  cases effect_of_exec hexec with
  | pushed a va ha _ => exact .inr (.inl ⟨a, va, rfl, ha, rfl⟩)
  | called a va _ _ => exact .inr (.inr (.inl ⟨a, rfl, rfl⟩))
  | popped d st v hstack => exact .inr (.inr (.inr (.inl ⟨.register d, v, rfl, hstack⟩)))
  | returned st v hstack => exact .inr (.inr (.inr (.inr ⟨v, rfl, hstack⟩)))
  | _ => exact .inl rfl

/-- Settles O32, one field at a time. -/
theorem streamsParametersAndStatusChangeOnlyAsListed : Obligations.StreamsParametersAndStatusChangeOnlyAsListed := by
  intro i s t hexec
  have heffect := effect_of_exec hexec
  exact ⟨effect_output heffect, effect_input heffect, effect_cfg heffect, effect_status heffect⟩

end Sys2Proof.Machine
end

section
namespace Sys2Proof.Machine

/-! ## The faults of a step, instruction by instruction (60_exceptions.md R161, R173) -/

section
variable {s : State} {i : Instr} {k : FaultKind}

theorem fetch_error_kind (h : s.fetch = .error k) : k = .outOfRangeAddress ∨ k = .unknownOpcode := by
  rcases fetch_cases s with ⟨-, hf⟩ | ⟨-, -, hf⟩ | ⟨row, -, -, -, hf⟩ | ⟨row, j, -, -, -, hf⟩
  · exact .inl (Except.error.inj (h.symm.trans hf))
  · exact .inr (Except.error.inj (h.symm.trans hf))
  · exact .inl (Except.error.inj (h.symm.trans hf))
  · simp [hf] at h

theorem operandFault_kind {r : Role} {o : Operand} (h : operandFault (r, o) = some k) :
    k = .invalidDestination ∧ r = .dest ∨ k = .invalidOperand := by
  cases r <;> cases o <;> simp_all [operandFault]

theorem firstOperandFault_kind (h : firstOperandFault i = some k) :
    (k = .invalidDestination ∧ ∃ o, (Role.dest, o) ∈ i.operands) ∨ (k = .invalidOperand ∧ i.operands ≠ []) := by
  obtain ⟨⟨r, o⟩, hmem, hfault⟩ := List.exists_of_findSome?_eq_some h
  rcases operandFault_kind hfault with ⟨hk, rfl⟩ | hk
  · exact .inl ⟨hk, o, hmem⟩
  · exact .inr ⟨hk, List.ne_nil_of_mem hmem⟩

end

/-- Settles O19: a fetch fails in one of two ways, and a fetched instruction faults for its first bad operand or, with
good operands, for an execution fault. -/
theorem eachInstructionRaisesItsOwnFaults : Obligations.EachInstructionRaisesItsOwnFaults := by
  intro s t hrun hstep hfaulted
  refine ⟨fun k hfetch => ⟨?_, fetch_error_kind hfetch⟩, fun i hfetch => ?_⟩
  · exact Host.Outcome.next.inj (hstep.symm.trans (step_of_fetch_error hrun hfetch))
  · have hexec : exec i s = .next t := (step_of_fetch hrun hfetch).symm.trans hstep
    obtain ⟨k, ht, hbad | ⟨-, hk⟩⟩ := effect_raised_of_faulted (effect_of_exec hexec) hrun hfaulted
    · exact ⟨k, ht, or_assoc.1 (.inl (firstOperandFault_kind hbad))⟩
    · exact ⟨k, ht, .inr (.inr hk)⟩

/-- Settles O21, one kind at a time. -/
theorem faultKindsHaveTheirCodes : Obligations.FaultKindsHaveTheirCodes := by
  intro s
  refine ⟨rfl, rfl, rfl, rfl, rfl, rfl, rfl, fun k => ⟨rfl, rfl⟩, fun hnone => ?_⟩
  rw [State.faultCode, hnone]

end Sys2Proof.Machine
end

section
namespace Sys2Proof.Machine

/-! ## Reset and loading (10_state.md R39, 20_memory.md R47, R48) -/

/-- The state that loading gives: what is loaded, over the fields of reset. -/
def State.loaded (cfg : Config) (image : List Word) (input : InputSeq) : State :=
  { State.reset with mem := Memory.ofWords cfg.memFill 0 image, input := input, cfg := cfg }

theorem start_of_le {cfg : Config} {image : List Word} (input : InputSeq) (h : image.length ≤ 32768) :
    State.start cfg image input = some (State.loaded cfg image input) :=
  if_pos h

theorem start_of_gt {cfg : Config} {image : List Word} (input : InputSeq) (h : 32768 < image.length) :
    State.start cfg image input = none :=
  if_neg h.not_ge

theorem start_eq_some {cfg : Config} {image : List Word} {input : InputSeq} {s : State}
    (h : State.start cfg image input = some s) :
    image.length ≤ 32768 ∧ s = State.loaded cfg image input := by
  rcases Nat.lt_or_ge 32768 image.length with hgt | hle
  · rw [start_of_gt input hgt] at h
    cases h
  · rw [start_of_le input hle] at h
    exact ⟨hle, (Option.some.inj h).symm⟩

/-- Loading lays out the image from address 0, with `MEM_FILL` above it. -/
theorem start_cell {cfg : Config} {image : List Word} {input : InputSeq} {s : State}
    (h : State.start cfg image input = some s) (x : Nat) : s.cell x = image.getD x cfg.memFill := by
  obtain ⟨-, rfl⟩ := start_eq_some h
  rw [cell_eq, State.loaded, Memory.read_ofWords, if_pos (Nat.zero_le x), Nat.sub_zero]

theorem reset_readReg (r : RegIndex) : State.reset.readReg r = 0#16 :=
  Vector.getElem_replicate r.isLt

/-- The state of an empty image at the default parameters is the model's reset state (log 4, log 8). -/
theorem start_empty : State.start Config.standard [] (.finite []) = some State.reset := rfl

theorem start_memoryWf {cfg : Config} {image : List Word} {input : InputSeq} {s : State}
    (h : State.start cfg image input = some s) : s.memoryWf := by
  obtain ⟨hle, rfl⟩ := start_eq_some h
  exact Memory.wf_ofWords _ _ ((Nat.zero_add _).trans_le hle)

theorem start_statusConsistent {cfg : Config} {image : List Word} {input : InputSeq} {s : State}
    (h : State.start cfg image input = some s) : s.statusConsistent := by
  obtain ⟨-, rfl⟩ := start_eq_some h
  exact statusConsistent_of_no_fault (by simp [State.loaded, State.reset]) rfl rfl

theorem start_stackWithinDepth {cfg : Config} {image : List Word} {input : InputSeq} {s : State}
    (h : State.start cfg image input = some s) : s.stackWithinDepth := by
  obtain ⟨-, rfl⟩ := start_eq_some h
  exact fun d _ => Nat.zero_le d

theorem reset_canonicalValues : State.reset.canonicalValues := by
  refine ⟨fun r => ?_, fun w hw => absurd hw List.not_mem_nil, fun x => ?_⟩
  · rw [canonical, reset_readReg]
    decide
  · rw [canonical, start_cell start_empty, List.getD_nil]
    decide

/-- Settles O25: the cells are `start_cell`, every other value is a field of the loaded state. -/
theorem resetGivesTheTableOfValues : Obligations.ResetGivesTheTableOfValues := by
  intro image input hle
  have hstart := start_of_le (cfg := Config.standard) input hle
  refine ⟨_, hstart, reset_readReg, rfl, rfl, fun x hx => ?_, fun x hx _ => ?_, rfl, rfl, rfl, rfl, rfl, rfl, rfl⟩
  · rw [start_cell hstart, List.getD_eq_getElem _ _ hx]
  · rw [start_cell hstart, List.getD_eq_default _ _ hx]
    rfl

/-- Settles O26, one invariant at a time. -/
theorem loadingMeetsTheInvariants : Obligations.LoadingMeetsTheInvariants :=
  fun _ _ input => ⟨start_of_gt input,
    fun _ h => ⟨start_memoryWf h, start_statusConsistent h, start_stackWithinDepth h⟩, start_empty⟩

/-- Settles O24: reset is loading the empty image, and its values are all 0. -/
theorem resetMeetsTheInvariants : Obligations.ResetMeetsTheInvariants :=
  ⟨start_memoryWf start_empty, start_statusConsistent start_empty, start_stackWithinDepth start_empty,
    reset_canonicalValues⟩

end Sys2Proof.Machine
end

section
namespace Sys2Proof.Machine

/-! ## Sequences on the Value Stack (41_data_movement_stack.md R103, 43_control_transfer.md R126) -/

section
variable {s t : State} {i : Instr}

theorem execAll_cons (h : exec i s = .next t) (is : List Instr) : execAll (i :: is) s = execAll is t := by
  rw [execAll, h]

theorem execAll_push_literals (vs : List (BitVec 15)) (s : State) (hdepth : s.cfg.stackDepth = none) :
    ∃ t, execAll (vs.map fun v => .push (.literal v)) s = .next t ∧
      t.stack = s.stack ++ vs.map (·.setWidth 16) ∧ t.regs = s.regs := by
  induction vs generalizing s with
  | nil => exact ⟨s, rfl, (List.append_nil _).symm, rfl⟩
  | cons v vs ih =>
    have hroom : s.stackFull = false := stackFull_eq_false.2 (by simp [hdepth])
    obtain ⟨t, hrest, hstack, hregs⟩ := ih ((s.withStack (s.stack ++ [v.setWidth 16])).advance 2) hdepth
    refine ⟨t, ?_, ?_, hregs⟩
    · rw [List.map_cons, execAll_cons (exec_push_of_room (resolve_literal v) hroom), hrest]
    · simpa using hstack

/-- The popped register holds the entry popped last, and what it held before where none is popped. -/
theorem execAll_pops (vs st : List Word) (d : RegIndex) (s : State) (hstack : s.stack = st ++ vs) :
    ∃ t, execAll (List.replicate vs.length (.pop (.register d))) s = .next t ∧ t.stack = st ∧
      t.readReg d = vs.headD (s.readReg d) ∧ ∀ r, r ≠ d → t.readReg r = s.readReg r := by
  induction vs using List.reverseRecOn generalizing s with
  | nil => exact ⟨s, rfl, by simpa using hstack, rfl, fun _ _ => rfl⟩
  | append_singleton vs v ih =>
    rw [← List.append_assoc] at hstack
    obtain ⟨t, hrest, hst, hd, hother⟩ := ih (((s.withStack (st ++ vs)).writeReg d v).advance 2) rfl
    refine ⟨t, ?_, hst, ?_, fun r hr => ?_⟩
    · rw [List.length_append, List.length_singleton, List.replicate_succ, execAll_cons (exec_pop_of_append hstack),
        hrest]
    · rw [hd]
      cases vs <;> simp
    · rw [hother r hr]
      exact State.readReg_writeReg_of_ne (s := s.withStack (st ++ vs)) hr v

end

/-- Settles O34: the pushes by induction from the first one, the pops by induction from the top entry. -/
theorem popsReturnPushesInReverseOrder : Obligations.PopsReturnPushesInReverseOrder := by
  refine ⟨execAll_push_literals, fun vs st d s hstack => ?_⟩
  obtain ⟨t, hrun, hst, hd, hother⟩ := execAll_pops vs st d s hstack
  refine ⟨t, hrun, hst, ?_, hother⟩
  rintro v vs' rfl
  exact hd

/-- Settles O35: `ret` takes off the return address that `call` put on top. -/
theorem retReturnsToTheInstructionAfterTheCall : Obligations.RetReturnsToTheInstructionAfterTheCall := by
  intro s u a va ha hroom
  exact ⟨_, exec_call_of_room ha (stackFull_eq_false.2 hroom), rfl, fun hstack => exec_ret_of_append hstack⟩

end Sys2Proof.Machine
end

section
namespace Sys2Proof.Machine

/-! ## Runs, and what they read of the input (40_execution_cycle.md R90, 60_exceptions.md R170, R183) -/

section
variable {s t : State}

theorem run_succ (h : step s = .next t) (n : Nat) : Host.Core.run core (n + 1) s = Host.Core.run core n t := by
  have hcore : core.step s = .next t := h
  simp only [Host.Core.run, hcore]

theorem run_of_step_self (h : step s = .next s) (n : Nat) : Host.Core.run core n s = .next s := by
  induction n with
  | zero => rfl
  | succ n ih => rw [run_succ h, ih]

/-- A character that arrives completes the waiting `in`, which leaves no character again. -/
theorem step_deliver_of_waiting {d : RegIndex} (ch : Byte) (hrun : s.run = .running)
    (hfetch : s.fetch = .ok (.inp (.register d))) (hinput : s.input = .finite []) :
    step (s.deliver ch) = .next ((s.writeReg d (ch.setWidth 16)).advance 2) := by
  have hfetch' : (s.deliver ch).fetch = .ok (.inp (.register d)) := (withStreams_fetch _ []).trans hfetch
  have htake : (s.deliver ch).input.take = some (ch, s.input) := by
    rw [State.deliver_input, hinput, append_finite, List.nil_append, take_finite_cons]
  exact (step_of_fetch (s := s.deliver ch) hrun hfetch').trans (exec_inp_of_take (s := s.deliver ch) htake)

/-- A step that fetches no `in` does the same with other streams (60_exceptions.md R170). -/
theorem step_withStreams (x : InputSeq) (before : List Byte) (hno : ∀ a, s.fetch ≠ .ok (.inp a))
    (h : step s = .next t) : step (s.withStreams x before) = .next (t.withStreams x before) := by
  have hfetch' : (s.withStreams x before).fetch = s.fetch := withStreams_fetch x before
  rcases step_cases h with ⟨hterminal, rfl⟩ | ⟨hrun, k, hfetch, rfl⟩ | ⟨hrun, i, hfetch, hexec, -⟩
  · exact step_of_terminal (s := t.withStreams x before) hterminal
  · exact step_of_fetch_error (s := s.withStreams x before) hrun (hfetch'.trans hfetch)
  · rw [step_of_fetch (s := s.withStreams x before) hrun (hfetch'.trans hfetch),
      exec_withStreams x before i (by rintro a rfl; exact hno a hfetch), hexec]
    rfl

/-- `n` steps take at most `n` characters: where these are the same, so is the run, up to the input left over. -/
theorem run_withInput (n : Nat) (s : State) (x : InputSeq) (hx : ∀ k < n, x.char? k = s.input.char? k) :
    ∃ t rest, Host.Core.run core n s = .next t ∧ Host.Core.run core n (s.withInput x) = .next (t.withInput rest) := by
  induction n generalizing s x with
  | zero => exact ⟨s, x, rfl, rfl⟩
  | succ n ih =>
    obtain ⟨t, hstep⟩ := step_next s
    rw [run_succ hstep]
    rcases step_input_cases hstep (hx 0 n.succ_pos) with ⟨hkept, hstep'⟩ | ⟨ch, r, r', htake, htake', hleft, hstep'⟩
    · rw [run_succ hstep']
      exact ih t x fun k hk => by rw [hkept, hx k (hk.trans n.lt_succ_self)]
    · rw [run_succ hstep']
      refine ih t r' fun k hk => ?_
      rw [hleft, (take_spec htake').2, (take_spec htake).2, hx (k + 1) (Nat.succ_lt_succ hk)]

/-- A step that leaves its character leaves it for the next one. -/
theorem runOn_of_kept {chars : Nat → Byte} (h : step (s.withInput (.finite [chars 0])) =
    .next (t.withInput (.finite [chars 0]))) (n : Nat) :
    runOn chars (n + 1) s = runOn chars n (t.withInput (.finite [chars 0])) := by
  simp only [runOn, stepOn, h]
  rfl

/-- A step that takes its character leaves those after it. -/
theorem runOn_of_taken {chars : Nat → Byte} (h : step (s.withInput (.finite [chars 0])) =
    .next (t.withInput (.finite []))) (n : Nat) :
    runOn chars (n + 1) s = runOn (fun k => chars (k + 1)) n (t.withInput (.finite [])) := by
  simp only [runOn, stepOn, h]
  rfl

/-- A run on an argument is the run of a state whose input begins with the argument's characters. The input `y` that the
argument's run starts with does not count: each of its steps is given a character of its own. -/
theorem run_eq_runOn (n : Nat) (s : State) (chars : Nat → Byte) (hx : ∀ k < n, s.input.char? k = some (chars k)) :
    ∃ t, Host.Core.run core n s = .next t ∧
      ∀ y, ∃ rest, runOn chars n (s.withInput y) = .next (t.withInput rest) := by
  induction n generalizing s chars with
  | zero => exact ⟨s, rfl, fun y => ⟨y, rfl⟩⟩
  | succ n ih =>
    obtain ⟨t, hstep⟩ := step_next s
    rw [run_succ hstep]
    have hnext : (InputSeq.finite [chars 0]).char? 0 = s.input.char? 0 := (hx 0 n.succ_pos).symm
    rcases step_input_cases hstep hnext with ⟨hkept, hstep'⟩ | ⟨ch, r, r', htake, htake', hleft, hstep'⟩
    · obtain ⟨u, hrun, hrunOn⟩ := ih t chars fun k hk => by rw [hkept, hx k (hk.trans n.lt_succ_self)]
      refine ⟨u, hrun, fun y => ?_⟩
      rw [runOn_succ, runOn_of_kept hstep']
      exact hrunOn _
    · obtain ⟨-, rfl⟩ : chars 0 = ch ∧ InputSeq.finite [] = r' := by simpa using htake'
      obtain ⟨u, hrun, hrunOn⟩ := ih t (fun k => chars (k + 1)) fun k hk => by
        rw [hleft, (take_spec htake).2, hx (k + 1) (Nat.succ_lt_succ hk)]
      refine ⟨u, hrun, fun y => ?_⟩
      rw [runOn_succ, runOn_of_taken hstep']
      exact hrunOn _

end

/-- Settles O37: one step for the streams, an induction on the number of steps for each of the two runs. -/
theorem onlyInputThroughInReachesTheCore : Obligations.OnlyInputThroughInReachesTheCore := by
  refine ⟨fun s t input before hno hstep => step_withStreams input before hno hstep,
    fun s n input hx => run_withInput n s input hx, fun s n chars hx => ?_⟩
  obtain ⟨t, hrun, hrunOn⟩ := run_eq_runOn n s chars hx
  obtain ⟨rest, hrest⟩ := hrunOn s.input
  exact ⟨t, rest, hrun, hrest⟩

/-- Settles O16: a terminal state steps to itself. -/
theorem terminalStatesAbsorb : Obligations.TerminalStatesAbsorb :=
  fun _ n hterminal => run_of_step_self (step_of_terminal hterminal) n

/-- Settles O38: a waiting state steps to itself, until a character is delivered. -/
theorem aWaitingInWakesOnACharacter : Obligations.AWaitingInWakesOnACharacter := by
  intro s d ch n hrun hfetch hinput
  have hwaiting : s.waiting := ⟨hrun, hinput, d, hfetch⟩
  exact ⟨run_of_step_self (step_of_waiting hwaiting) n, step_deliver_of_waiting ch hrun hfetch hinput⟩

end Sys2Proof.Machine
end
